-- ==== Sys2Proof/Word.lean ====
section
/-! DEFINITION. The two word types of the hardware: the byte of a bus word (R7, R51) and the 16-bit
address field (R13). -/

namespace Sys2Proof

/-- A byte, bit 7 the most significant (R7). -/
abbrev Byte := BitVec 8

/-- A value of the 16-bit `CurrentAddress` field (R13). -/
abbrev RegAddr := BitVec 16

end Sys2Proof
end

