-- ==== Sys2Proof/Config.lean ====
section
/-! DEFINITION. What is fixed for one machine (the open parameters of R6 that a rule uses, as plain
data), what the constructor and the start callback hand over, and the two free values. -/

namespace Sys2Proof

/-- The construction contract's binding: "four bus signal lines plus one diagnostic output" (R19,
R50, R111), each a logical pin identifier. DESIGN CHOICE (log 12): an identifier is a number. -/
structure Binding where
  selN : Nat
  sclk : Nat
  sdi  : Nat
  sdo  : Nat
  diag : Nat
deriving DecidableEq, Repr, Inhabited

/-- The open parameters of R6 and 92_eei_decisions.md that a rule uses: the two queue depths (D15)
and the platform's predicate `resolves`, as the list of the bindings it resolves (R112, log 11). -/
structure Config where
  txDepth  : Nat
  rxDepth  : Nat
  bindings : List Binding
deriving DecidableEq, Repr

/-- What one call of the start callback answers (R105, R61): the bytes of `tx` and the initial bytes
of `rx`, each with the place where the application keeps them (R16: "where the bytes are and how
many"). The lengths of the two lists are `tx.length` and `rx.length`. -/
structure StartAnswer where
  txBase : Nat
  tx     : List Byte
  rxBase : Nat
  rx     : List Byte
deriving DecidableEq, Repr, Inhabited

/-- FREE VALUE (log 17): what an application answers where no scripted answer is at hand. It
depends on the callback, on how many calls came before and on the address ("depending on `a` or on
anything else", R116); nothing constrains it. -/
opaque Config.startAnswer (handle call : Nat) (address : RegAddr) : StartAnswer

/-- FREE VALUE (log 20): the byte on `sdo` at the n-th underrun (R135, U1: "a draw per underrun"). -/
opaque Config.underrunByte (draw : Nat) : Byte

end Sys2Proof
end

