-- ==== Sys2Proof/Syntax.lean ====
section
/-! DEFINITION. The states, the select edges, the events and the operations of the engine: one
constructor of `Instr` per row of spec/opcode_table.json. -/

namespace Sys2Proof

/-- `TransactionState` (R11): three named values, the code 3 names none (R29). -/
inductive TransactionState where
  | inactive
  | waitingAddress
  | transferring
deriving DecidableEq, Repr

/-- What the select-edge detector posts (R70). -/
inductive SelEdge where
  | fall   -- `SelFall`: the line went from deasserted to asserted
  | rise   -- `SelRise`: the reverse
deriving DecidableEq, Repr

/-- The events of R56, external and internal. -/
inductive Event where
  | selFall | selRise | rxByte | txSlot | pump | tick | construct | callStart | callEnd | reinit
deriving DecidableEq, Repr

/-- The operations (R58) and the two wire byte kinds (R53). The operand `b` of the receive operations
is "the byte just popped" (R88 to R90); the operands of `construct` are those of R111. -/
inductive Instr where
  | selAssert
  | selReassertW
  | selReassertT
  | selDeassertI
  | selDeassertW
  | selDeassertT
  | rxDiscard (b : Byte)
  | rxAddr (b : Byte)
  | rxData (b : Byte)
  | txPrime
  | pump
  | diagTick
  | construct (binding : Binding) (start finish : Nat)
  | cbStart
  | cbEnd
  | pReinit
  | wireAddr (a : Byte)
  | wireData (d : Byte)
deriving DecidableEq, Repr

end Sys2Proof
end

