-- ==== Sys2Proof/WellFormed.lean ====
section
/-! DEFINITION. Which terms of `Instr` have an encoding: every operand fits its operand byte. Only
CONSTRUCT has operands that could fail to (log 12); a byte operand always fits. -/

namespace Sys2Proof

/-- A pin identifier or a callback handle that fits one operand byte. -/
def fitsByte (n : Nat) : Bool := n < 256

/-- All five identifiers of a binding fit. -/
def Binding.wf (b : Binding) : Bool :=
  fitsByte b.selN && fitsByte b.sclk && fitsByte b.sdi && fitsByte b.sdo && fitsByte b.diag

/-- Well-formed instructions. -/
def Instr.wf : Instr → Bool
  | .selAssert => true
  | .selReassertW => true
  | .selReassertT => true
  | .selDeassertI => true
  | .selDeassertW => true
  | .selDeassertT => true
  | .rxDiscard _ => true
  | .rxAddr _ => true
  | .rxData _ => true
  | .txPrime => true
  | .pump => true
  | .diagTick => true
  | .construct binding start finish => binding.wf && fitsByte start && fitsByte finish
  | .cbStart => true
  | .cbEnd => true
  | .pReinit => true
  | .wireAddr _ => true
  | .wireData _ => true

end Sys2Proof
end

