-- ==== Sys2Proof/Decode.lean ====
section
/-! DEFINITION. The decoder: the 6-bit dispatch word of R58 with the operand bytes of the operation
(log 12, log 13), and the wire byte, whose kind is its index in the frame (R53, R60). Then the
encoder, from the same table. -/

namespace Sys2Proof

/-! ## Codes -/

/-- State codes (R57). -/
def TransactionState.code : TransactionState → BitVec 2
  | .inactive => 0b00
  | .waitingAddress => 0b01
  | .transferring => 0b10

/-- The state a code names; 0b11 names none (R29). -/
def TransactionState.ofCode (c : BitVec 2) : Option TransactionState :=
  if c = 0b00 then some .inactive
  else if c = 0b01 then some .waitingAddress
  else if c = 0b10 then some .transferring
  else none

/-- Event codes (R56). -/
def Event.code : Event → BitVec 4
  | .selFall => 0x0
  | .selRise => 0x1
  | .rxByte => 0x2
  | .txSlot => 0x3
  | .pump => 0x4
  | .tick => 0x5
  | .construct => 0x6
  | .callStart => 0x7
  | .callEnd => 0x8
  | .reinit => 0x9

/-- The event a posted select edge raises (R70). -/
def SelEdge.event : SelEdge → Event
  | .fall => .selFall
  | .rise => .selRise

/-- The dispatch word `evt[3:0] ++ st[1:0]` (R58). -/
def dispatchWord (e : BitVec 4) (st : BitVec 2) : BitVec 6 := e ++ st

/-- The dispatch word as the first byte on the event port: its two upper bits are 0 (log 14). -/
def dispatchByte (e : BitVec 4) (st : BitVec 2) : Byte := (dispatchWord e st).setWidth 8

/-! ## Decoding -/

/-- Why bytes are no instruction, by name (R59). -/
inductive DecodeError where
  | noBytes                                        -- nothing was presented
  | notADispatchWord (byte : Byte)                 -- a bit above the six of a dispatch word is set
  | reservedEvent (event : BitVec 4)               -- event codes 0xA to 0xF
  | reservedState (event : BitVec 4)               -- state code 0b11 in a row that names a state
  | noSuchOperation (event : BitVec 4) (state : BitVec 2)  -- a combination R58 does not list
  | missingOperand                                 -- fewer operand bytes than the operation takes
deriving DecidableEq, Repr

/-- What reading an instruction from bytes gives: the instruction and the bytes after it. -/
abbrev Decoded := Except DecodeError (Instr × List Byte)

/-- An operation with no operand byte. -/
def noOperand (i : Instr) (bytes : List Byte) : Decoded := .ok (i, bytes)

/-- An operation with one operand byte (log 13). -/
def byteOperand (mk : Byte → Instr) : List Byte → Decoded
  | b :: rest => .ok (mk b, rest)
  | [] => .error .missingOperand

/-- The operands of CONSTRUCT: five pin identifiers, the start and the end callback (R111, log 12). -/
def constructOperands : List Byte → Decoded
  | p :: c :: i :: o :: d :: f :: g :: rest =>
    .ok (.construct ⟨p.toNat, c.toNat, i.toNat, o.toNat, d.toNat⟩ f.toNat g.toNat, rest)
  | _ => .error .missingOperand

/-- One EVT row of the opcode table: match, mask, and how its operands are read. -/
structure Row where
  value   : BitVec 6
  mask    : BitVec 6
  operand : List Byte → Decoded

/-- The sixteen EVT rows (R58, spec/opcode_table.json), in the table's order. -/
def rows : List Row :=
  [ ⟨0x00, 0x3F, noOperand .selAssert⟩,
    ⟨0x01, 0x3F, noOperand .selReassertW⟩,
    ⟨0x02, 0x3F, noOperand .selReassertT⟩,
    ⟨0x04, 0x3F, noOperand .selDeassertI⟩,
    ⟨0x05, 0x3F, noOperand .selDeassertW⟩,
    ⟨0x06, 0x3F, noOperand .selDeassertT⟩,
    ⟨0x08, 0x3F, byteOperand .rxDiscard⟩,
    ⟨0x09, 0x3F, byteOperand .rxAddr⟩,
    ⟨0x0A, 0x3F, byteOperand .rxData⟩,
    ⟨0x0E, 0x3F, noOperand .txPrime⟩,
    ⟨0x10, 0x3C, noOperand .pump⟩,
    ⟨0x14, 0x3C, noOperand .diagTick⟩,
    ⟨0x18, 0x3C, constructOperands⟩,
    ⟨0x1D, 0x3F, noOperand .cbStart⟩,
    ⟨0x22, 0x3F, noOperand .cbEnd⟩,
    ⟨0x24, 0x3C, noOperand .pReinit⟩ ]

/-- The name under which a dispatch word in no row is refused (R59). -/
def reservedName (w : BitVec 6) : DecodeError :=
  let e := w.extractLsb' 2 4
  let st := w.extractLsb' 0 2
  if 0xA ≤ e.toNat then .reservedEvent e
  else if st = 0b11 then .reservedState e
  else .noSuchOperation e st

/-- A dispatch word and the bytes after it: the row whose masked bits agree, or a refusal by name. -/
def decodeWord (w : BitVec 6) (operands : List Byte) : Decoded :=
  match rows.find? (fun r => w &&& r.mask = r.value) with
  | some r => r.operand operands
  | none => .error (reservedName w)

/-- The EVT format: the dispatch byte, then the operand bytes. -/
def decodeEvent : List Byte → Decoded
  | [] => .error .noBytes
  | b :: operands =>
    if b.toNat < 64 then decodeWord (b.setWidth 6) operands
    else .error (.notADispatchWord b)

/-- The WIRE format: the byte's index in the frame is its kind; every value is legal (R53, R59). -/
def decodeWire (index : Nat) (b : Byte) : Instr :=
  if index = 0 then .wireAddr b else .wireData b

/-- Where an instruction's bytes stand: on the event port, or on the wire at a frame index. -/
inductive Port where
  | event
  | wire (index : Nat)
deriving DecidableEq, Repr

/-- The decoder, total on any bytes. -/
def decode : Port → List Byte → Decoded
  | .event, bytes => decodeEvent bytes
  | .wire index, b :: rest => .ok (decodeWire index b, rest)
  | .wire _, [] => .error .noBytes

/-! ## Encoding -/

/-- Where an instruction's encoding stands: operations on the event port, WIRE_ADDR at frame index 0,
WIRE_DATA at a later one (index 1 stands for all of them). -/
def Instr.port : Instr → Port
  | .wireAddr _ => .wire 0
  | .wireData _ => .wire 1
  | _ => .event

/-- An identifier as an operand byte. -/
def idByte (n : Nat) : Byte := BitVec.ofNat 8 n

/-- The bytes of a well-formed instruction; don't-care state bits are written 00. -/
def encode : Instr → List Byte
  | .selAssert => [0x00]
  | .selReassertW => [0x01]
  | .selReassertT => [0x02]
  | .selDeassertI => [0x04]
  | .selDeassertW => [0x05]
  | .selDeassertT => [0x06]
  | .rxDiscard b => [0x08, b]
  | .rxAddr b => [0x09, b]
  | .rxData b => [0x0A, b]
  | .txPrime => [0x0E]
  | .pump => [0x10]
  | .diagTick => [0x14]
  | .construct n f g =>
    [0x18, idByte n.selN, idByte n.sclk, idByte n.sdi, idByte n.sdo, idByte n.diag, idByte f, idByte g]
  | .cbStart => [0x1D]
  | .cbEnd => [0x22]
  | .pReinit => [0x24]
  | .wireAddr a => [a]
  | .wireData d => [d]

/-! ## A table word -/

/-- The first n bytes of a number whose bit 0 is the least significant bit of the first byte. -/
def bytesOfNat : Nat → Nat → List Byte
  | 0, _ => []
  | n + 1, w => BitVec.ofNat 8 w :: bytesOfNat n (w / 256)

/-- The bytes of a table word: eight, the length of the longest instruction (CONSTRUCT), every bit
above nbits 0. -/
def tableBytes (nbits w : Nat) : List Byte := bytesOfNat 8 (w % 2 ^ nbits)

/-- Which format a table word is of (log 14): a first byte that is a 6-bit dispatch word is EVT; any
other byte can only be of the WIRE format and is read as frame byte 0. -/
def tablePort : List Byte → Port
  | b :: _ => if b.toNat < 64 then .event else .wire 0
  | [] => .event

/-- The instruction the decoder reads from a table word (log 14). -/
def decodeTableWord (nbits w : Nat) : Option Instr :=
  match decode (tablePort (tableBytes nbits w)) (tableBytes nbits w) with
  | .ok (i, _) => some i
  | .error _ => none

end Sys2Proof
end

