-- ==== Sys2Proof/Machine/State.lean ====
section
/-! DEFINITION. The state of the engine and of its environment as plain data, why a step can stop, and
the state right after construction (R23, R170). -/

namespace Sys2Proof.Machine

/-- Bytes of an application memory by address, in canonical form (`Memory.wf`, Machine/Ops.lean). -/
abbrev Memory := List Host.Cell

/-- `TransferBuffers` (R16): where the two buffers of a transaction are and how long. -/
structure Buffers where
  txBase : Nat
  txLen  : Nat
  rxBase : Nat
  rxLen  : Nat
deriving DecidableEq, Repr

/-- A word in the shifter (R130, R139): the bits sampled so far, first bit first, and the byte whose
bits are on `sdo`. -/
structure PartialWord where
  sampled : List Bool
  sending : Byte
deriving DecidableEq, Repr

/-- One scripted answer of the application (R61): callback, address, answer. Used once (log 17). -/
structure ScriptRow where
  handle  : Nat
  address : RegAddr
  answer  : StartAnswer
deriving DecidableEq, Repr

/-- What an observer of the block sees (R108, R134, R138): the calls and the words. -/
inductive Obs where
  | start (handle : Nat) (address : RegAddr)                -- `Start(a)`
  | finish (handle : Nat) (address : RegAddr) (count : Int)  -- `End(a, n)`
  | word (sdi sdo : Byte)                                   -- one whole word exchanged
deriving DecidableEq, Repr

/-- The levels of the clocked lines (R50) in one half of a clock period (R52, R139). -/
structure Lines where
  sclk : Bool
  sdi  : Bool
  sdo  : Bool
deriving DecidableEq, Repr

/-- The two interrupt sources (R146, R147). -/
inductive Irq where
  | selectEdge
  | byteReady
deriving DecidableEq, Repr

/-- What the environment does in one step (R61, R145, R155). DESIGN CHOICE (log 43): no input is a write of
the application to its own buffers; after `End` it may reuse or free both (R116), and in the model their
bytes stay as they are until a later `Start` hands over buffers. -/
inductive Input where
  | sel (level : Bool)                             -- the master drives `sel_n`; the detector samples it
  | service (source : Irq)                         -- the platform services a pending interrupt
  | event (code : BitVec 4) (operands : List Byte) -- an external event of R56, on the free port (R71)
  | clk (m : Byte)                                 -- the master clocks one whole word (R134)
  | bit (b : Bool)                                 -- the master clocks one bit (R139)
deriving DecidableEq, Repr

/-- The whole machine. Levels: true is 1. -/
structure State where
  /-- an engine exists: "the engine does not exist before construction" (R19), which happens once (R111,
  R179); the state `none yet` of CONSTRUCT's row (R58) is false -/
  constructed : Bool
  /-- R11 -/
  state : TransactionState
  /-- R13; held as none outside `Transferring` (C8) -/
  addr : Option RegAddr
  /-- R14 -/
  txCount : Nat
  /-- R15 -/
  rxCount : Nat
  /-- R16; held as none outside `Transferring` -/
  bufs : Option Buffers
  /-- `sel_q` (R17): level of the select line at the previous sample -/
  selQ : Bool
  /-- R18 -/
  diag : Bool
  /-- R19 -/
  binding : Binding
  /-- R19: the start callback, as a handle -/
  cbStart : Nat
  /-- R19: the end callback, as a handle -/
  cbEnd : Nat
  /-- R133: received bytes not yet read, oldest first -/
  rxq : List Byte
  /-- R133: bytes pushed and not yet taken by the shifter, oldest first -/
  txq : List Byte
  /-- the shifter; none between words (R130, R139) -/
  shift : Option PartialWord
  /-- words cut off by an edge of `sel_n` and not yet cleared, oldest first: "shift-register residue"
  (R22, R35, R44) -/
  residue : List PartialWord
  /-- the level of `sel_n` (R50) -/
  selN : Bool
  /-- select events posted and not yet serviced, oldest first (R70, R148) -/
  pendingSel : List SelEdge
  /-- both interrupt sources enabled, at one priority (R111, R174) -/
  irqEnabled : Bool
  /-- whole words completed in the current select cycle (R53) -/
  frameIdx : Nat
  /-- the application's transmit bytes (R32) -/
  txMem : Memory
  /-- the application's receive bytes (R33) -/
  rxMem : Memory
  /-- the application's coming answers to `Start` (log 17) -/
  script : List ScriptRow
  /-- calls of `Start` so far (log 17) -/
  startCalls : Nat
  /-- underrun draws so far (log 20) -/
  draws : Nat
  /-- observations, oldest first (log 19) -/
  trace : List Obs
  /-- the lines in each half of each clock period, oldest first (log 19); `sclk` is low after it -/
  wire : List Lines
  /-- an internal step of R56 to perform before any input; none, but where withFetchWord places one,
  since a handler performs its internal steps inside itself (R149, log 4) -/
  inner : Option (BitVec 4 × List Byte)
  /-- what the environment does next, oldest first (log 2) -/
  inputs : List Input
  /-- the open parameters (R6) -/
  cfg : Config
deriving DecidableEq, Repr

/-- Why the machine stops. All are safe: the machine stops where the hardware may go on. -/
inductive Fault where
  /-- `ConfigurationError`: CONSTRUCT with a binding that does not resolve (R112, R151): the process
  aborts. Raised by CONSTRUCT. Safe. -/
  | configurationError
  /-- A word completed while the receive queue was full (R136, U2: fault of the environment
  contract). Raised by WIRE_ADDR, WIRE_DATA and a clocked bit. Safe. -/
  | rxOverrun
  /-- `P.tx_push` with no free slot (R129, U3: fault of the environment contract). Raised by
  SEL_ASSERT and TX_PRIME. Safe. -/
  | pushNoSlot
  /-- `addr` read while it holds none (R7: a model fault; R24: no run reaches it). Raised by CB_START,
  CB_END and SEL_DEASSERT_T. Safe. -/
  | noAddress
  /-- `bufs` read while it holds none (R7: a model fault; R24: no run reaches it). Raised by RX_DATA
  and TX_PRIME. Safe. -/
  | noBuffers
deriving DecidableEq, Repr

/-- Why an instruction has no meaning. -/
inductive Refusal where
  /-- An instruction whose meaning is not written yet. Raised by exec's own arm. Safe. -/
  | notModelled (mnemonic : String)
  /-- An operation run in a state other than the one its dispatch word names (R58, R59: such a
  combination is another operation, or none). Raised by every operation with a `require` on the
  state; a step never selects one. Safe. -/
  | notInState (required : TransactionState)
  /-- Bytes on the event port that are no row of the opcode table (R59: refused by name). Raised by
  the dispatch of an event. Safe. -/
  | reservedWord (error : DecodeError)
  /-- CONSTRUCT where an engine exists (R111, R179: no operation re-constructs one; log 8). Raised by
  CONSTRUCT. Safe. -/
  | alreadyConstructed
  /-- An event other than Construct where no engine exists (R19, R23; log 8). Raised by the free event
  port. Safe. -/
  | noEngine
  /-- An internal event presented from outside (R56: it is no input; R59: it arises only inside a
  handler, which performs it). Raised by the free event port. Safe. -/
  | internalEvent (code : BitVec 4)
deriving DecidableEq, Repr

/-- Right after construction with the select line high (R23, R111, R170); the values the spec leaves
to the constructor, the platform and the environment are log 26. -/
def State.reset : State where
  constructed := true
  state := .inactive
  addr := none
  txCount := 0
  rxCount := 0
  bufs := none
  selQ := true
  diag := true
  binding := ⟨0, 0, 0, 0, 0⟩
  cbStart := 0
  cbEnd := 0
  rxq := []
  txq := []
  shift := none
  residue := []
  selN := true
  pendingSel := []
  irqEnabled := true
  frameIdx := 0
  txMem := []
  rxMem := []
  script := []
  startCalls := 0
  draws := 0
  trace := []
  wire := []
  inner := none
  inputs := []
  cfg := ⟨1, 1, [⟨0, 0, 0, 0, 0⟩]⟩

end Sys2Proof.Machine
end

