-- ==== Sys2Proof/Machine/Flags.lean ====
section
/-! DEFINITION. The conditions the operations test (R20). The engine has no flag of its own: two are
status reads of the peripheral (R126, R128), two are comparisons computed where used. -/

namespace Sys2Proof.Machine

/-- `P.rx_avail` (R126, R133). -/
def rxAvail (s : State) : Bool := !s.rxq.isEmpty

/-- `P.tx_free` (R128, R133). -/
def txFree (s : State) : Bool := s.txq.length < s.cfg.txDepth

/-- The byte-ready request: the cause of the `Pump` interrupt (R131, R147). -/
def byteReady (s : State) : Bool := rxAvail s || txFree s

/-- Room for one more received byte in the peripheral (R134). -/
def rxRoom (s : State) : Bool := s.rxq.length < s.cfg.rxDepth

/-- `rxCount < rx.length` (R90). -/
def rxFits (d : Buffers) (s : State) : Bool := s.rxCount < d.rxLen

/-- `txCount < tx.length` (R91). -/
def txRemains (d : Buffers) (s : State) : Bool := s.txCount < d.txLen

/-- Free transmit slots (R133). -/
def freeSlots (s : State) : Nat := s.cfg.txDepth - s.txq.length

end Sys2Proof.Machine
end

