-- ==== Sys2Proof/Machine/Operands.lean ====
section
/-! DEFINITION. Operand assembly: the address and count operands (R54, R55), the two fixed bytes
(R6), and the bits of a word on the wire (R51, R139). -/

namespace Sys2Proof.Machine

/-- The byte enqueued at select assertion (R6, R72). -/
def placeholder : Byte := 0x00

/-- The byte transmitted once `tx` is exhausted (R6, R91). -/
def pad : Byte := 0x00

/-- `zext_16(b)`: the address operand (R54). -/
def addressOperand (b : Byte) : RegAddr := b.setWidth 16

/-- The count operand of `End`: the same value, as a signed integer (R55). -/
def countOperand (n : Nat) : Int := n

/-- The bit of `b` on the line in clock period k of its word (R51: `b[7-k]`). -/
def bitAt (b : Byte) (k : Nat) : Bool := b.getMsbD k

/-- The eight levels of a word, clock period 0 first (R51). -/
def bitsOf (b : Byte) : List Bool :=
  [bitAt b 0, bitAt b 1, bitAt b 2, bitAt b 3, bitAt b 4, bitAt b 5, bitAt b 6, bitAt b 7]

/-- The lines during one clock period (R52, R139): `sclk` idle low, then high; both data bits stand
before the rising edge, at which both sides sample, and change only after the falling edge (G3). -/
def clockPeriod (sdi sdo : Bool) : List Lines := [⟨false, sdi, sdo⟩, ⟨true, sdi, sdo⟩]

/-- One more sampled bit, below those before it (R139). -/
def shiftIn (acc : Byte) (b : Bool) : Byte := (acc <<< 1) ||| (if b then 1 else 0)

/-- The received byte `b0 ++ b1 ++ ... ++ b7` (R139). -/
def assemble (bits : List Bool) : Byte := bits.foldl shiftIn 0

end Sys2Proof.Machine
end

