-- ==== Sys2Proof/Machine/Ops.lean ====
section
/-! DEFINITION. The named operations the meanings are made of: sequencing, memory, the port primitives
(R125 to R133), the select-edge detector (R70), the two callbacks (R105, R108), the fatal error of
construction (R112) and the shifter (R134, R139). -/

namespace Sys2Proof.Machine

/-! ## Sequencing -/

/-- One operation after another; a stop ends the handler. -/
def andThen (o : Host.Outcome State Fault Refusal) (f : State → Host.Outcome State Fault Refusal) :
    Host.Outcome State Fault Refusal :=
  match o with
  | .next s => f s
  | .fault r => .fault r
  | .refused r => .refused r

/-- `require state = st`: the operation selected for another state is not this one (R58, log 24). -/
def requireState (st : TransactionState) (s : State) (body : Host.Outcome State Fault Refusal) :
    Host.Outcome State Fault Refusal :=
  if s.state = st then body else .refused (.notInState st)

/-- `raise ConfigurationError`: the process aborts and nothing follows (R112, R151). There is no
other exception and so no exception entry or return (R150, R156, R157). -/
def raiseConfigurationError : Host.Outcome State Fault Refusal := .fault .configurationError

/-! ## Memory -/

/-- What an address nothing has written reads as (log 16). -/
def unwritten : Byte := 0x00

/-- The canonical form: addresses strictly rising, no entry equal to an unlisted one. -/
abbrev Memory.wf (m : Memory) : Prop :=
  m.Pairwise (fun c d => c.1 < d.1) ∧ ∀ c ∈ m, c.2 ≠ unwritten

/-- Read one byte. -/
def Memory.read : Memory → Nat → Byte
  | [], _ => unwritten
  | (k, v) :: m, a => if k = a then v else Memory.read m a

/-- Put a cell before a memory, unless it reads as an unlisted one. -/
def Memory.cell (a : Nat) (v : Byte) (m : Memory) : Memory :=
  if v = unwritten then m else (a, v) :: m

/-- Write one byte, keeping the canonical form. -/
def Memory.write : Memory → Nat → Byte → Memory
  | [], a, v => Memory.cell a v []
  | (k, w) :: m, a, v =>
    if a < k then Memory.cell a v ((k, w) :: m)
    else if a = k then Memory.cell a v m
    else (k, w) :: Memory.write m a v

/-- Write bytes at consecutive addresses. -/
def Memory.load (m : Memory) (base : Nat) : List Byte → Memory
  | [] => m
  | b :: bytes => Memory.load (Memory.write m base b) (base + 1) bytes

/-- `MemRead(tx, i, 1)` (R32). -/
def readTx (d : Buffers) (i : Nat) (s : State) : Byte := Memory.read s.txMem (d.txBase + i)

/-- `MemWrite(rx, i, 1, v)` (R33). -/
def writeRx (d : Buffers) (i : Nat) (v : Byte) (s : State) : State :=
  { s with rxMem := Memory.write s.rxMem (d.rxBase + i) v }

/-! ## The peripheral port -/

/-- `P.rx_pop()`: the oldest received byte, removed; none where there is none (R127, R133). -/
def rxPop (s : State) : Option (Byte × State) :=
  match s.rxq with
  | [] => none
  | b :: q => some (b, { s with rxq := q })

/-- `P.tx_push(b)` (R129, R133); with no free slot a fault of the environment contract (U3). -/
def txPush (b : Byte) (s : State) : Host.Outcome State Fault Refusal :=
  if txFree s then .next { s with txq := s.txq ++ [b] } else .fault .pushNoSlot

/-- `P.reinit()`: both queues emptied, the shifter and its residue cleared, the engine's fields not
touched (R130, R44). -/
def reinitPort (s : State) : State := { s with rxq := [], txq := [], shift := none, residue := [] }

/-! ## The select-edge detector -/

/-- What a sample at level `l` posts after the level `q` (R70). -/
def edgeOf (q l : Bool) : List SelEdge :=
  match q, l with
  | true, false => [.fall]
  | false, true => [.rise]
  | _, _ => []

/-- The master drives `sel_n` to `level` and the detector samples it (R70); before construction there is
no detector and no event (R23). A select cycle's words are
counted from its falling edge (R53). An edge cuts off a word that is not whole: its bits never become a
received byte, nor a part of one, and are residue that `P.reinit()` clears (R35, log 32). -/
def driveSelect (level : Bool) (s : State) : State :=
  { s with
    selN := level
    shift := if s.selN = level then s.shift else none
    residue := if s.selN = level then s.residue else s.residue ++ s.shift.toList
    frameIdx := if s.selN && !level then 0 else s.frameIdx
    pendingSel := s.pendingSel ++ if s.constructed then edgeOf s.selQ level else []
    selQ := level }

/-! ## The callbacks -/

/-- The first scripted answer for this callback and address, and the script without it (log 17). -/
def takeScripted (handle : Nat) (address : RegAddr) :
    List ScriptRow → Option (StartAnswer × List ScriptRow)
  | [] => none
  | r :: rs =>
    if r.handle = handle ∧ r.address = address then some (r.answer, rs)
    else (takeScripted handle address rs).map (fun p => (p.1, r :: p.2))

/-- The application's answer to `Start(a)`, and its answers to come: scripted, else free (R105). -/
def answerOf (s : State) (a : RegAddr) : StartAnswer × List ScriptRow :=
  (takeScripted s.cbStart a s.script).getD (Config.startAnswer s.cbStart s.startCalls a, s.script)

/-- The descriptor of the buffers an answer hands over (R16). -/
def descriptorOf (w : StartAnswer) : Buffers := ⟨w.txBase, w.tx.length, w.rxBase, w.rx.length⟩

/-- `bufs <- call Start(a)` (R105): the application fills its two buffers and lends them. -/
def callStart (a : RegAddr) (s : State) : State :=
  let w := answerOf s a
  { s with
    bufs := some (descriptorOf w.1)
    txMem := Memory.load s.txMem w.1.txBase w.1.tx
    rxMem := Memory.load s.rxMem w.1.rxBase w.1.rx
    script := w.2
    startCalls := s.startCalls + 1
    trace := s.trace ++ [.start s.cbStart a] }

/-- `call End(a, rxCount)` (R108): an output event; the engine writes nothing. -/
def callEnd (a : RegAddr) (s : State) : State :=
  { s with trace := s.trace ++ [.finish s.cbEnd a (countOperand s.rxCount)] }

/-! ## The shifter -/

/-- The word in the shifter; at the start of a word the byte to send is taken from the transmit path,
which frees its slot, or is an underrun draw (R134, R135). -/
def wordInShifter (s : State) : PartialWord × State :=
  match s.shift, s.txq with
  | some w, _ => (w, s)
  | none, b :: q => (⟨[], b⟩, { s with txq := q })
  | none, [] => (⟨[], Config.underrunByte s.draws⟩, { s with draws := s.draws + 1 })

/-- The end of a word: the received byte joins the queue, or the queue is full (R134, R136). -/
def endWord (received sent : Byte) (s : State) : Host.Outcome State Fault Refusal :=
  if rxRoom s then
    .next { s with
      rxq := s.rxq ++ [received]
      shift := none
      frameIdx := if s.selN then s.frameIdx else s.frameIdx + 1
      trace := s.trace ++ [.word received sent] }
  else .fault .rxOverrun

/-- One clock period with `sdi` at level `b` (R139). -/
def clockBit (b : Bool) (s : State) : Host.Outcome State Fault Refusal :=
  let (w, s1) := wordInShifter s
  let sampled := w.sampled ++ [b]
  let s2 := { s1 with
    wire := s1.wire ++ clockPeriod b (bitAt w.sending w.sampled.length)
    shift := some ⟨sampled, w.sending⟩ }
  if sampled.length < 8 then .next s2 else endWord (assemble sampled) w.sending s2

/-- Clock periods one after another. -/
def clockBits : List Bool → State → Host.Outcome State Fault Refusal
  | [], s => .next s
  | b :: bits, s => andThen (clockBit b s) (clockBits bits)

/-- `CLK m`: the eight clock periods of the word `m` (R134, R139). -/
def clockWord (m : Byte) (s : State) : Host.Outcome State Fault Refusal := clockBits (bitsOf m) s

end Sys2Proof.Machine
end

