-- ==== Sys2Proof/Machine/Link.lean ====
section
/-! DEFINITION. The peripheral's command (43_peripheral_port.md) and the two wire byte kinds (R53). -/

namespace Sys2Proof.Machine

/-- P_REINIT (R130). -/
def execPReinit (s : State) : Host.Outcome State Fault Refusal := .next (reinitPort s)

/-- WIRE_ADDR (R53): the master clocks frame byte 0, the address; the byte sent is the head of the
transmit path, the placeholder of R72 when SEL_ASSERT has run (R134). -/
def execWireAddr (a : Byte) (s : State) : Host.Outcome State Fault Refusal := clockWord a s

/-- WIRE_DATA (R53): the master clocks a later frame byte; the byte sent is the head of the transmit
path, as primed (R91, R134). -/
def execWireData (d : Byte) (s : State) : Host.Outcome State Fault Refusal := clockWord d s

end Sys2Proof.Machine
end

