-- ==== Sys2Proof/Machine/Handshake.lean ====
section
/-! DEFINITION. The host handshake family (42_host_handshake.md). -/

namespace Sys2Proof.Machine

/-- CB_START (R105): `(tx, rx) <- cb_start(addr)`; the state is still `WaitingAddress`. -/
def execCbStart (s : State) : Host.Outcome State Fault Refusal :=
  requireState .waitingAddress s
    (match s.addr with
    | none => .fault .noAddress
    | some a => .next (callStart a s))

/-- CB_END (R108): `cb_end(addr, rxCount)`; the state is still `Transferring`. -/
def execCbEnd (s : State) : Host.Outcome State Fault Refusal :=
  requireState .transferring s
    (match s.addr with
    | none => .fault .noAddress
    | some a => .next (callEnd a s))

/-- CONSTRUCT (R111, R112): every field of the engine set, or `ConfigurationError`. Only where no engine
exists: an engine is built once, never rebuilt (R111, R179, log 8). -/
def execConstruct (binding : Binding) (start finish : Nat) (s : State) :
    Host.Outcome State Fault Refusal :=
  if s.constructed then .refused .alreadyConstructed
  else if binding ∈ s.cfg.bindings then
    .next { reinitPort { s with
      constructed := true
      binding := binding
      cbStart := start
      cbEnd := finish
      state := .inactive
      addr := none
      bufs := none
      txCount := 0
      rxCount := 0
      diag := true } with
      selQ := s.selN
      pendingSel := []
      irqEnabled := true }
  else raiseConfigurationError

/-- DIAG_TICK (R114). -/
def execDiagTick (s : State) : Host.Outcome State Fault Refusal := .next { s with diag := true }

end Sys2Proof.Machine
end

