-- ==== Sys2Proof/Machine/Pump.lean ====
section
/-! DEFINITION. The byte-pump family (41_byte_pump.md). -/

namespace Sys2Proof.Machine

/-- The byte TX_PRIME pushes: `tx[txCount]`, or the pad (R91). -/
def nextTxByte (d : Buffers) (s : State) : Byte :=
  if txRemains d s then readTx d s.txCount s else pad

/-- TX_PRIME (R91): one byte into one free transmit slot. -/
def execTxPrime (s : State) : Host.Outcome State Fault Refusal :=
  requireState .transferring s
    (match s.bufs with
    | none => .fault .noBuffers
    | some d =>
      andThen (txPush (nextTxByte d s) s) (fun t => .next { t with txCount := t.txCount + 1 }))

/-- At most `n` rounds of PRIME (R92). -/
def primeLoop : Nat → State → Host.Outcome State Fault Refusal
  | 0, s => .next s
  | n + 1, s => if txFree s then andThen (execTxPrime s) (primeLoop n) else .next s

/-- PRIME (R92): TX_PRIME while a slot is free; each push uses one up. -/
def prime (s : State) : Host.Outcome State Fault Refusal := primeLoop (freeSlots s) s

/-- RX_DISCARD (R88): the byte is dropped. -/
def execRxDiscard (_b : Byte) (s : State) : Host.Outcome State Fault Refusal :=
  requireState .inactive s (.next s)

/-- RX_ADDR (R89): the address phase. -/
def execRxAddr (b : Byte) (s : State) : Host.Outcome State Fault Refusal :=
  requireState .waitingAddress s
    (andThen (execCbStart { s with addr := some (addressOperand b) })
      (fun t => prime { t with state := .transferring }))

/-- Store a data byte if it is within `rx` (R90). -/
def storeRx (d : Buffers) (b : Byte) (s : State) : State :=
  if rxFits d s then writeRx d s.rxCount b s else s

/-- RX_DATA (R90): one step of the data phase. -/
def execRxData (b : Byte) (s : State) : Host.Outcome State Fault Refusal :=
  requireState .transferring s
    (match s.bufs with
    | none => .fault .noBuffers
    | some d => prime { storeRx d b s with rxCount := s.rxCount + 1 })

/-- What PUMP does with a byte it popped: the state is read now (R86). -/
def rxByte (b : Byte) (s : State) : Host.Outcome State Fault Refusal :=
  match s.state with
  | .inactive => execRxDiscard b s
  | .waitingAddress => execRxAddr b s
  | .transferring => execRxData b s

/-- At most `n` rounds of the pump loop (R86). -/
def pumpLoop : Nat → State → Host.Outcome State Fault Refusal
  | 0, s => .next s
  | n + 1, s =>
    match rxPop s with
    | none => .next s
    | some (b, t) => andThen (rxByte b t) (pumpLoop n)

/-- PUMP (R86, R87): every received byte, one after another; with none, nothing. -/
def execPump (s : State) : Host.Outcome State Fault Refusal := pumpLoop s.rxq.length s

end Sys2Proof.Machine
end

