-- ==== Sys2Proof/Machine/Select.lean ====
section
/-! DEFINITION. The select-edge family (40_select_edge.md). -/

namespace Sys2Proof.Machine

/-- SEL_ASSERT (R72): arm the engine. -/
def execSelAssert (s : State) : Host.Outcome State Fault Refusal :=
  requireState .inactive s
    (andThen (txPush placeholder { s with txCount := 0, rxCount := 0, state := .waitingAddress })
      (fun t => .next { t with diag := false }))

/-- SEL_REASSERT_W (R73): nothing changes. -/
def execSelReassertW (s : State) : Host.Outcome State Fault Refusal :=
  requireState .waitingAddress s (.next s)

/-- SEL_REASSERT_T (R73): nothing changes. -/
def execSelReassertT (s : State) : Host.Outcome State Fault Refusal :=
  requireState .transferring s (.next s)

/-- SEL_DEASSERT_I (R76): only the peripheral is re-initialised. -/
def execSelDeassertI (s : State) : Host.Outcome State Fault Refusal :=
  requireState .inactive s (.next (reinitPort { s with state := .inactive }))

/-- SEL_DEASSERT_W (R75): no callback. -/
def execSelDeassertW (s : State) : Host.Outcome State Fault Refusal :=
  requireState .waitingAddress s (.next (reinitPort { s with state := .inactive }))

/-- SEL_DEASSERT_T (R74): `End` first, then `Inactive`, then the re-initialisation. -/
def execSelDeassertT (s : State) : Host.Outcome State Fault Refusal :=
  requireState .transferring s
    (andThen (execCbEnd s)
      (fun t => .next (reinitPort { t with state := .inactive, addr := none, bufs := none })))

end Sys2Proof.Machine
end

