-- ==== Sys2Proof/Machine/Dispatch.lean ====
section
/-! DEFINITION. One arm per operation. -/

namespace Sys2Proof.Machine

def exec (i : Instr) (s : State) : Host.Outcome State Fault Refusal :=
  match i with
  -- 40_select_edge.md
  | .selAssert => Sys2Proof.Machine.execSelAssert s
  | .selReassertW => Sys2Proof.Machine.execSelReassertW s
  | .selReassertT => Sys2Proof.Machine.execSelReassertT s
  | .selDeassertI => Sys2Proof.Machine.execSelDeassertI s
  | .selDeassertW => Sys2Proof.Machine.execSelDeassertW s
  | .selDeassertT => Sys2Proof.Machine.execSelDeassertT s
  -- 41_byte_pump.md
  | .rxDiscard b => Sys2Proof.Machine.execRxDiscard b s
  | .rxAddr b => Sys2Proof.Machine.execRxAddr b s
  | .rxData b => Sys2Proof.Machine.execRxData b s
  | .txPrime => Sys2Proof.Machine.execTxPrime s
  | .pump => Sys2Proof.Machine.execPump s
  -- 42_host_handshake.md
  | .diagTick => Sys2Proof.Machine.execDiagTick s
  | .construct binding start finish => Sys2Proof.Machine.execConstruct binding start finish s
  | .cbStart => Sys2Proof.Machine.execCbStart s
  | .cbEnd => Sys2Proof.Machine.execCbEnd s
  -- 43_peripheral_port.md
  | .pReinit => Sys2Proof.Machine.execPReinit s
  | .wireAddr a => Sys2Proof.Machine.execWireAddr a s
  | .wireData d => Sys2Proof.Machine.execWireData d s

end Sys2Proof.Machine
end

