-- ==== Sys2Proof/Machine/Schedule.lean ====
section
/-! DEFINITION. What one input does (R61, R145): the fetch of this machine is the dispatch of an event
in the current state (R58), or a word on the wire (R134). Then how an instruction is placed so that
the next step runs it (log 14). -/

namespace Sys2Proof.Machine

/-- Dispatch an event (R58): the operation is the one the dispatch word selects in the state as it is
now; what is in no row is refused by name (R59). Entering a handler saves nothing (R156). -/
def dispatch (code : BitVec 4) (operands : List Byte) (s : State) : Host.Outcome State Fault Refusal :=
  match decode .event (dispatchByte code s.state.code :: operands) with
  | .ok (i, _) => exec i s
  | .error e => .refused (.reservedWord e)

/-- The events that are internal steps of the handlers (R56). -/
def internalEvent (code : BitVec 4) : Bool :=
  [Event.rxByte, .txSlot, .callStart, .callEnd, .reinit].any (fun e => e.code = code)

/-- An event on the free port: an internal one is no input (R56, R59) and is refused by name; where no
engine exists there is none to take any but Construct (R19, log 8). -/
def presentEvent (code : BitVec 4) (operands : List Byte) (s : State) :
    Host.Outcome State Fault Refusal :=
  if internalEvent code then .refused (.internalEvent code)
  else if s.constructed || code = Event.construct.code then dispatch code operands s
  else .refused .noEngine

/-- Service the select-edge interrupt (R146): the oldest posted event is consumed by its handler. With
nothing posted, or the source not enabled, no handler runs (log 6). -/
def serviceSelect (s : State) : Host.Outcome State Fault Refusal :=
  match s.irqEnabled, s.pendingSel with
  | true, e :: rest => dispatch e.event.code [] { s with pendingSel := rest }
  | _, _ => .next s

/-- Service the byte-ready interrupt (R147): PUMP. -/
def servicePump (s : State) : Host.Outcome State Fault Refusal :=
  if s.irqEnabled then dispatch Event.pump.code [] s else .next s

/-- The master clocks a word: in a frame it is a byte of the kind its index gives (R53); with select
deasserted it is in no frame (R63, R140). -/
def clockInput (m : Byte) (s : State) : Host.Outcome State Fault Refusal :=
  if s.selN then clockWord m s else exec (decodeWire s.frameIdx m) s

/-- One input. -/
def runInput (i : Input) (s : State) : Host.Outcome State Fault Refusal :=
  match i with
  | .sel level => .next (driveSelect level s)
  | .service .selectEdge => serviceSelect s
  | .service .byteReady => servicePump s
  | .event code operands => presentEvent code operands s
  | .clk m => clockInput m s
  | .bit b => clockBit b s

/-- The internal step that was placed, if one was (log 4); else the next input of the environment; with
none the engine is idle (R164, log 3). -/
def nextInput (s : State) : Host.Outcome State Fault Refusal :=
  match s.inner, s.inputs with
  | some (code, operands), _ => dispatch code operands { s with inner := none }
  | none, i :: rest => runInput i { s with inputs := rest }
  | none, [] => .next s

/-! ## Placing an instruction -/

/-- Give the fields of a transaction a value where they have none, as far as the operation placed needs
it: `addr` for CB_START and in `Transferring`, `bufs` in `Transferring` (log 14). -/
def attach (code : BitVec 4) (s : State) : State :=
  let a := some (s.addr.getD 0)
  match s.state with
  | .inactive => s
  | .waitingAddress => if code = Event.callStart.code then { s with addr := a } else s
  | .transferring => { s with addr := a, bufs := some (s.bufs.getD ⟨0, 0, 0, 0⟩) }

/-- Place an event: its state code becomes the state where it names one; for Construct, whose row's state is
`none yet` (R58), no engine exists. An external event is the next
input, an internal one the internal step to perform (log 4). -/
def placeEvent (b : Byte) (operands : List Byte) (s : State) : State :=
  let code : BitVec 4 := b.extractLsb' 2 4
  let st := (TransactionState.ofCode (b.extractLsb' 0 2)).getD s.state
  let t := { s with state := st, constructed := code ≠ Event.construct.code }
  attach code
    (if internalEvent code then { t with inner := some (code, operands) }
    else { t with inner := none, inputs := .event code operands :: s.inputs })

/-- Place a wire byte as frame byte 0 of a select cycle, between words. -/
def placeWire (b : Byte) (s : State) : State :=
  { s with
    selN := false, selQ := false, frameIdx := 0, shift := none, inner := none,
    inputs := .clk b :: s.inputs }

/-- Place the instruction of a table word where the next step takes its input. -/
def placeWord (nbits w : Nat) (s : State) : State :=
  match tableBytes nbits w with
  | [] => s
  | b :: operands => if b.toNat < 64 then placeEvent b operands s else placeWire b s

end Sys2Proof.Machine
end

