-- ==== Sys2Proof/Machine/Step.lean ====
section
/-! DEFINITION. One step of the machine: the next input of the environment. -/

namespace Sys2Proof.Machine

/-- One step (R40, R149: one handler, or one act of the environment, at a time). -/
def step (s : State) : Host.Outcome State Fault Refusal := nextInput s

/-- The state with the instruction of a table word where step takes its next input (log 14). -/
def State.withFetchWord (s : State) (nbits w : Nat) : State := placeWord nbits w s

end Sys2Proof.Machine
end

