-- ==== Sys2Proof/Safety.lean ====
section
/-! DEFINITION. What claims about runs are stated in: the invariant of the machine, the transmit stream
of a transaction, the trace notation of R61 and R62 as inputs, and the timely schedule of R137. -/

namespace Sys2Proof

open Sys2Proof.Machine

/-! ## The invariant -/

/-- What every step keeps (Obligations.StepKeepsInvariant). -/
structure Invariant (s : State) : Prop where
  /-- R24: in `Transferring`, `addr` and `bufs` hold a value. -/
  attached : s.state = .transferring → s.addr.isSome ∧ s.bufs.isSome
  /-- C8: elsewhere they are held as none. -/
  detached : s.state ≠ .transferring → s.addr = none ∧ s.bufs = none
  /-- R13: bits 15 to 8 of `addr` are 0. -/
  addrByte : ∀ a, s.addr = some a → a.toNat < 256
  /-- R25: in `WaitingAddress` both counters are 0. -/
  armed : s.state = .waitingAddress → s.txCount = 0 ∧ s.rxCount = 0
  /-- R72 corner (a): in `Inactive` the transmit path is empty. -/
  quiet : s.state = .inactive → s.txq = []
  /-- R133: the queues hold at most their depth. -/
  txBound : s.txq.length ≤ s.cfg.txDepth
  rxBound : s.rxq.length ≤ s.cfg.rxDepth
  /-- R51: a word in the shifter has fewer than eight bits. -/
  shiftBound : ∀ w, s.shift = some w → w.sampled.length < 8
  /-- R35: what an edge cut off is no whole word either. -/
  residueBound : ∀ w ∈ s.residue, w.sampled.length < 8
  /-- R70: `sel_q` is the level of the last sample. -/
  selFollows : s.selQ = s.selN
  /-- R71: the select events not yet serviced alternate, and the last one is the line's level. -/
  alternates : s.pendingSel.IsChain (fun e f => e ≠ f)
  lastEdge : ∀ e, s.pendingSel.getLast? = some e → e = if s.selN then .rise else .fall
  /-- The two memories are in canonical form. -/
  txWf : s.txMem.wf
  rxWf : s.rxMem.wf
  /-- R6: both depths are at least 1. -/
  depths : 0 < s.cfg.txDepth ∧ 0 < s.cfg.rxDepth
  /-- R56: internal steps happen inside the handlers and are no input. -/
  noInner : s.inner = none
  /-- R148: both sources are enabled once, during construction, and nothing disables them. -/
  enabled : s.irqEnabled = s.constructed
  /-- R19, R23: before construction no engine runs and no select event is posted. -/
  unbuilt : s.constructed = false → s.state = .inactive ∧ s.pendingSel = []

/-! ## The calls of a trace -/

/-- An observation that is a call of the application (R105, R108), not a word. -/
def isCall : Obs → Bool
  | .start _ _ => true
  | .finish _ _ _ => true
  | .word _ _ => false

/-- The calls among observations, in order. -/
def callsOf (l : List Obs) : List Obs := l.filter isCall

/-- A step that arms the engine, which begins a new cycle: from `Inactive` to `WaitingAddress` (R72). -/
def arms (s t : State) : Prop := s.state = .inactive ∧ t.state = .waitingAddress

/-! ## The transmit stream -/

/-- The k-th byte TX_PRIME pushes in a transaction (R95). -/
def streamByte (d : Buffers) (mem : Memory) (k : Nat) : Byte :=
  if k < d.txLen then Memory.read mem (d.txBase + k) else 0x00

/-- The `n` bytes pushed from count `first` on. -/
def stream (d : Buffers) (mem : Memory) (first n : Nat) : List Byte :=
  (List.range n).map (fun j => streamByte d mem (first + j))

/-! ## Trace notation -/

/-- `SELFALL` (R61). -/
def selFallLine : List Input := [.sel false, .service .selectEdge]

/-- `SELRISE` (R61). -/
def selRiseLine : List Input := [.sel true, .service .selectEdge]

/-- `TICK` (R61). -/
def tickLine : List Input := [.event Event.tick.code []]

/-- `XFER 0xMM` (R62): `CLK 0xMM` then `PUMP`. -/
def xferLine (m : Byte) : List Input := [.clk m, .service .byteReady]

/-- The `XFER`s of the data bytes. -/
def xferLines (ds : List Byte) : List Input := ds.flatMap xferLine

/-- `TXN 0xAA [d0 ... dN-1]` (R62). -/
def txnLine (a : Byte) (ds : List Byte) : List Input :=
  selFallLine ++ xferLine a ++ xferLines ds ++ selRiseLine

/-- `NULLTXN` (R62). -/
def nullTxnLine : List Input := selFallLine ++ selRiseLine

/-- Between transactions, with nothing pending and nothing left over: where R138 starts. -/
structure Idle (s : State) : Prop where
  built : s.constructed = true
  inactive : s.state = .inactive
  rxEmpty : s.rxq = []
  txEmpty : s.txq = []
  noWord : s.shift = none
  noResidue : s.residue = []
  selHigh : s.selN = true
  sampledHigh : s.selQ = true
  noPending : s.pendingSel = []
  enabled : s.irqEnabled = true
  noInner : s.inner = none
  depths : 0 < s.cfg.txDepth ∧ 0 < s.cfg.rxDepth

/-! ## The timely schedule -/

/-- What decides whether a schedule is timely, as read from the schedule alone. -/
structure Timing where
  /-- the select line is asserted -/
  low : Bool
  /-- select events posted and not yet serviced, oldest first -/
  posted : List SelEdge
  /-- a word was clocked and no PUMP has run since -/
  owed : Bool
  /-- words clocked so far while the line was deasserted (R140) -/
  outside : Nat
deriving DecidableEq, Repr

/-- Between transactions. -/
def Timing.start : Timing := ⟨false, [], false, 0⟩

/-- One input of a timely schedule, or none where the input breaks R137: (a) no word of a select cycle
before the assertion is serviced; (b) a PUMP after every word and before the next word or the next
deassertion; (c) no assertion before the previous deassertion is serviced. A PUMP is a service of the
byte-ready interrupt or the event on the free port. Of the other inputs TICK may come at any time;
single clock periods, construction and select events without the line are in no line of a timely trace
(R61, R62, log 42). -/
def timelyNext (p : Timing) : Input → Option Timing
  | .sel level =>
    if level = !p.low then some p
    else if level then
      if p.owed then none else some { p with low := false, posted := p.posted ++ [.rise] }
    else if .rise ∈ p.posted then none
    else some { p with low := true, posted := p.posted ++ [.fall] }
  | .service .selectEdge => some { p with posted := p.posted.tail }
  | .service .byteReady => some { p with owed := false }
  | .clk _ =>
    if p.owed then none
    else if p.low then if .fall ∈ p.posted then none else some { p with owed := true }
    else some { p with owed := true, outside := p.outside + 1 }
  | .event code _ =>
    if code = Event.pump.code then some { p with owed := false }
    else if code = Event.tick.code then some p
    else none
  | .bit _ => none

/-- Where a schedule ends, or none where R137 is broken on the way. -/
def timelyFrom : Timing → List Input → Option Timing
  | p, [] => some p
  | p, i :: rest => (timelyNext p i).bind (fun q => timelyFrom q rest)

/-- A timely schedule from between transactions that ends at `p`: after the last word too a PUMP ran. -/
def TimelyTo (inputs : List Input) (p : Timing) : Prop :=
  timelyFrom Timing.start inputs = some p ∧ p.owed = false

/-! ## Replacing a field of a result -/

/-- Apply a change to the next state of an outcome. -/
def mapNext (f : State → State) : Host.Outcome State Fault Refusal → Host.Outcome State Fault Refusal
  | .next s => .next (f s)
  | .fault r => .fault r
  | .refused r => .refused r

end Sys2Proof
end

