-- ==== Sys2Proof/Certificates/Slice0/Obligations.lean ====
section
/-! DEFINITION. The statements for the provers, each from the rules of spec/ its docstring names. -/

open Sys2Proof Sys2Proof.Machine

/-! ## Reset and the invariant -/

/-- R23, R170: what construction leaves. The values are the spec's own choice (D10), `sel_q` equal to
the select line among them; the level of the line and the depths are the model's (log 26, log 34). -/
def Obligations.ResetLeavesConstructedEngine : Prop :=
  State.reset.constructed = true ∧
  State.reset.state = .inactive ∧ State.reset.addr = none ∧ State.reset.bufs = none ∧
  State.reset.txCount = 0 ∧ State.reset.rxCount = 0 ∧ State.reset.selQ = State.reset.selN ∧
  State.reset.diag = true ∧ State.reset.rxq = [] ∧ State.reset.txq = [] ∧
  State.reset.shift = none ∧ State.reset.residue = [] ∧ State.reset.irqEnabled = true ∧
  State.reset.pendingSel = [] ∧ State.reset.inner = none ∧
  State.reset.binding ∈ State.reset.cfg.bindings

/-- The invariant and the start of a transaction hold right after construction (with the line high and
depths of 1, the model's own choices: log 26, log 34). -/
def Obligations.ResetMeetsInvariantAndIsIdle : Prop := Invariant State.reset ∧ Idle State.reset

/-- R13, R24, R25, R71, R72 (a), R133: every step keeps the invariant, from every state that meets it
and whatever the environment does. -/
def Obligations.StepKeepsInvariant : Prop :=
  ∀ s t, Invariant s → step s = .next t → Invariant t

/-! ## Encoding -/

/-- Decoding an encoded well-formed instruction gives it back, with whatever follows it; WIRE_DATA at
every frame index but 0 (R53, R58; how operand bytes follow a dispatch byte is log 12 and log 13). -/
def Obligations.DecodeInvertsEncode : Prop :=
  (∀ i rest, i.wf = true → decode i.port (encode i ++ rest) = .ok (i, rest)) ∧
  (∀ n d rest, 0 < n → decode (.wire n) (encode (.wireData d) ++ rest) = .ok (.wireData d, rest))

/-- R58: the operation map, for every event and every state it lists, whatever the operand bytes (their
order is log 12 and log 13). -/
def Obligations.DispatchMapSelectsOperation : Prop :=
  ∀ (b p c i o d f g : Byte) (ops : List Byte) (st : TransactionState),
    decode .event (dispatchByte Event.selFall.code TransactionState.inactive.code :: ops) = .ok (.selAssert, ops) ∧
    decode .event (dispatchByte Event.selFall.code TransactionState.waitingAddress.code :: ops) = .ok (.selReassertW, ops) ∧
    decode .event (dispatchByte Event.selFall.code TransactionState.transferring.code :: ops) = .ok (.selReassertT, ops) ∧
    decode .event (dispatchByte Event.selRise.code TransactionState.inactive.code :: ops) = .ok (.selDeassertI, ops) ∧
    decode .event (dispatchByte Event.selRise.code TransactionState.waitingAddress.code :: ops) = .ok (.selDeassertW, ops) ∧
    decode .event (dispatchByte Event.selRise.code TransactionState.transferring.code :: ops) = .ok (.selDeassertT, ops) ∧
    decode .event (dispatchByte Event.rxByte.code TransactionState.inactive.code :: b :: ops) = .ok (.rxDiscard b, ops) ∧
    decode .event (dispatchByte Event.rxByte.code TransactionState.waitingAddress.code :: b :: ops) = .ok (.rxAddr b, ops) ∧
    decode .event (dispatchByte Event.rxByte.code TransactionState.transferring.code :: b :: ops) = .ok (.rxData b, ops) ∧
    decode .event (dispatchByte Event.txSlot.code TransactionState.transferring.code :: ops) = .ok (.txPrime, ops) ∧
    decode .event (dispatchByte Event.pump.code st.code :: ops) = .ok (.pump, ops) ∧
    decode .event (dispatchByte Event.tick.code st.code :: ops) = .ok (.diagTick, ops) ∧
    decode .event (dispatchByte Event.construct.code st.code :: p :: c :: i :: o :: d :: f :: g :: ops) =
      .ok (.construct ⟨p.toNat, c.toNat, i.toNat, o.toNat, d.toNat⟩ f.toNat g.toNat, ops) ∧
    decode .event (dispatchByte Event.callStart.code TransactionState.waitingAddress.code :: ops) = .ok (.cbStart, ops) ∧
    decode .event (dispatchByte Event.callEnd.code TransactionState.transferring.code :: ops) = .ok (.cbEnd, ops) ∧
    decode .event (dispatchByte Event.reinit.code st.code :: ops) = .ok (.pReinit, ops)

/-- R59: the dispatch words of no row are refused by name: event codes from 0xA, the state code 0b11
where the row names a state, and the combinations R58 does not list. -/
def Obligations.ReservedDispatchWordsAreRefused : Prop :=
  ∀ (e : BitVec 4) (st : BitVec 2) (ops : List Byte),
    (10 ≤ e.toNat → decode .event (dispatchByte e st :: ops) = .error (.reservedEvent e)) ∧
    (e ∈ [0x0#4, 0x1#4, 0x2#4, 0x3#4, 0x7#4, 0x8#4] →
      decode .event (dispatchByte e 0b11 :: ops) = .error (.reservedState e)) ∧
    ((e, st) ∈ [(0x3#4, 0b00#2), (0x3#4, 0b01#2), (0x7#4, 0b00#2), (0x7#4, 0b10#2), (0x8#4, 0b00#2), (0x8#4, 0b01#2)] →
      decode .event (dispatchByte e st :: ops) = .error (.noSuchOperation e st))

/-- VE7, VE8, VE9, VE10, VE11, VE12 and one word of every family, written out from R58 and R53. R58 gives a
dispatch word six bits and no operand: the byte that holds it, with two upper bits 0, is the model's
choice (log 14), and so is the operand byte 0x10 after RX_ADDR's (log 13). -/
def Obligations.SpecWordsDecode : Prop :=
  decode .event [0b00000110#8] = .ok (.selDeassertT, []) ∧
  decode .event [0b00001001#8, 0x10#8] = .ok (.rxAddr 0x10#8, []) ∧
  decode .event [0b00010010#8] = .ok (.pump, []) ∧
  decode .event [0b00001100#8] = .error (.noSuchOperation 0x3#4 0b00#2) ∧
  decode .event [0b00101000#8] = .error (.reservedEvent 0xA#4) ∧
  decode .event [0b00000011#8] = .error (.reservedState 0x0#4) ∧
  decode .event [0b00011101#8] = .ok (.cbStart, []) ∧
  decode .event [0b00100100#8] = .ok (.pReinit, []) ∧
  decode (.wire 0) [0b10101010#8] = .ok (.wireAddr 0xAA#8, []) ∧
  decode (.wire 3) [0b00000001#8] = .ok (.wireData 0x01#8, [])

/-- R51, R139: a word's eight bits, sampled in order, are the word; VE1 and VE4. -/
def Obligations.WordBitsAssembleToTheWord : Prop :=
  (∀ b : Byte, assemble (bitsOf b) = b) ∧
  bitsOf 0x10#8 = [false, false, false, true, false, false, false, false] ∧
  assemble [true, false, false, false, false, false, false, false] = 0x80#8

/-! ## A step runs the decoded instruction -/

/-- R58: a step runs the instruction its event decodes to. Where no internal step was placed and the next
input is an external event of R56 (or a reserved code) whose dispatch byte and operands decode to an
instruction, the step is exec of it with the input consumed; where they do not, the step refuses by
the name; an internal event of R56 is no input and is refused by name. Where no engine exists yet (R19)
only Construct is taken so, and any other code is refused (log 8). Where an internal step was placed, the
step is exec of what it decodes to. The model's choices: that an internal step can be placed for a step
of its own (log 4), operand bytes after the dispatch byte (log 12, log 13), the byte that holds a dispatch
word (log 14). -/
def Obligations.StepRunsTheDispatchedEvent : Prop :=
  ∀ (s : State) (code : BitVec 4) (ops : List Byte) (more : List Input),
    (s.inner = none → s.inputs = .event code ops :: more →
      (code ∉ [0x2#4, 0x3#4, 0x7#4, 0x8#4, 0x9#4] → (s.constructed = true ∨ code = 0x6#4) →
        (∀ i r, decode .event (dispatchByte code s.state.code :: ops) = .ok (i, r) →
          step s = exec i { s with inputs := more }) ∧
        (∀ e, decode .event (dispatchByte code s.state.code :: ops) = .error e →
          step s = .refused (.reservedWord e))) ∧
      (code ∉ [0x2#4, 0x3#4, 0x7#4, 0x8#4, 0x9#4] → s.constructed = false → code ≠ 0x6#4 →
        step s = .refused .noEngine) ∧
      (code ∈ [0x2#4, 0x3#4, 0x7#4, 0x8#4, 0x9#4] → step s = .refused (.internalEvent code))) ∧
    (s.inner = some (code, ops) →
      (∀ i r, decode .event (dispatchByte code s.state.code :: ops) = .ok (i, r) →
        step s = exec i { s with inner := none }) ∧
      (∀ e, decode .event (dispatchByte code s.state.code :: ops) = .error e →
        step s = .refused (.reservedWord e)))

/-- R146, R147, R148: servicing the select-edge interrupt runs what the oldest posted edge selects and
consumes it; servicing the byte-ready interrupt runs PUMP; with nothing posted, or the sources not
enabled, no handler runs (log 6). -/
def Obligations.StepServicesInterrupts : Prop :=
  ∀ (s : State) (more : List Input) (e : SelEdge) (p : List SelEdge) (i : Instr) (r : List Byte),
    s.inner = none →
    (s.inputs = .service .selectEdge :: more → s.irqEnabled = true → s.pendingSel = e :: p →
      decode .event [dispatchByte e.event.code s.state.code] = .ok (i, r) →
      step s = exec i { s with inputs := more, pendingSel := p }) ∧
    (s.inputs = .service .byteReady :: more → s.irqEnabled = true →
      step s = exec .pump { s with inputs := more }) ∧
    (s.inputs = .service .selectEdge :: more → s.pendingSel = [] →
      step s = .next { s with inputs := more }) ∧
    (∀ source, s.inputs = .service source :: more → s.irqEnabled = false →
      step s = .next { s with inputs := more })

/-- R53, R134, R140: a clocked word is, in a select cycle, the wire byte its frame index decodes to,
and otherwise a word in no frame; a clocked bit is one period of it; with no input nothing happens
(log 3). -/
def Obligations.StepClocksWords : Prop :=
  ∀ (s : State) (m : Byte) (b : Bool) (more : List Input), s.inner = none →
    (s.inputs = .clk m :: more → s.selN = false → s.frameIdx = 0 →
      step s = exec (.wireAddr m) { s with inputs := more }) ∧
    (s.inputs = .clk m :: more → s.selN = false → 0 < s.frameIdx →
      step s = exec (.wireData m) { s with inputs := more }) ∧
    (s.inputs = .clk m :: more → s.selN = true →
      step s = clockWord m { s with inputs := more }) ∧
    (s.inputs = .bit b :: more → step s = clockBit b { s with inputs := more }) ∧
    (s.inputs = [] → step s = .next s)

/-- R70: a sample of the select line posts `SelFall` on 1 to 0, `SelRise` on 0 to 1 and nothing
otherwise, and `sel_q` takes the level; a select cycle's words are counted from the fall (R53); a word
that an edge finds in the shifter is cut off and becomes residue (R35, log 32). Before construction no
event is posted (R23). -/
def Obligations.SelectDetectorPostsEdges : Prop :=
  ∀ (s : State) (level : Bool) (more : List Input),
    s.inner = none → s.inputs = .sel level :: more → s.selQ = s.selN →
    (s.constructed = true → s.selQ = true → level = false →
      step s = .next { s with inputs := more, selN := false, selQ := false, frameIdx := 0,
                              shift := none, residue := s.residue ++ s.shift.toList,
                              pendingSel := s.pendingSel ++ [.fall] }) ∧
    (s.constructed = true → s.selQ = false → level = true →
      step s = .next { s with inputs := more, selN := true, selQ := true,
                              shift := none, residue := s.residue ++ s.shift.toList,
                              pendingSel := s.pendingSel ++ [.rise] }) ∧
    (s.selQ = level → step s = .next { s with inputs := more }) ∧
    (s.constructed = false → ∃ t, step s = .next t ∧ t.selN = level ∧ t.selQ = level ∧
      t.pendingSel = s.pendingSel ∧ t.constructed = false)

/-! ## The select-edge family -/

/-- R72: SEL_ASSERT zeroes the counters, enters `WaitingAddress`, enqueues the placeholder and pulls
`diag` low; nothing else changes. -/
def Obligations.SelAssertArmsTheEngine : Prop :=
  ∀ s : State, s.state = .inactive → s.txq.length < s.cfg.txDepth →
    exec .selAssert s = .next { s with
      txCount := 0, rxCount := 0, state := .waitingAddress, txq := s.txq ++ [0x00#8], diag := false }

/-- R73: an assertion while not `Inactive` changes nothing (the spec's decision D4). -/
def Obligations.SelReassertChangesNothing : Prop :=
  (∀ s : State, s.state = .waitingAddress → exec .selReassertW s = .next s) ∧
  (∀ s : State, s.state = .transferring → exec .selReassertT s = .next s)

/-- R74: SEL_DEASSERT_T calls `End(addr, rxCount)`, returns to `Inactive`, detaches address and
buffers and empties the peripheral; nothing else changes, the counters among it. -/
def Obligations.SelDeassertTFinalisesTransaction : Prop :=
  ∀ (s : State) (a : RegAddr), s.state = .transferring → s.addr = some a →
    exec .selDeassertT s = .next { s with
      trace := s.trace ++ [.finish s.cbEnd a (s.rxCount : Int)],
      state := .inactive, addr := none, bufs := none, rxq := [], txq := [], shift := none, residue := [] }

/-- R75: SEL_DEASSERT_W, dispatch word 0x05, returns to `Inactive` and empties the peripheral, an address
byte still in it among the rest, with no callback. -/
def Obligations.SelDeassertWLeavesNoTrace : Prop :=
  dispatchWord Event.selRise.code TransactionState.waitingAddress.code = 0x05#6 ∧
  (∀ ops, decodeWord 0x05#6 ops = .ok (.selDeassertW, ops)) ∧
  (∀ s : State, s.state = .waitingAddress →
    exec .selDeassertW s = .next { s with
      state := .inactive, rxq := [], txq := [], shift := none, residue := [] })

/-- R76: SEL_DEASSERT_I only empties the peripheral (the spec's decision D5). -/
def Obligations.SelDeassertIOnlyReinitialises : Prop :=
  ∀ s : State, s.state = .inactive →
    exec .selDeassertI s = .next { s with rxq := [], txq := [], shift := none, residue := [] }

/-! ## The byte pump -/

/-- R88: RX_DISCARD, dispatch word 0x08, drops the byte, whatever it is, and changes nothing. -/
def Obligations.RxDiscardDropsTheByte : Prop :=
  dispatchWord Event.rxByte.code TransactionState.inactive.code = 0x08#6 ∧
  (∀ ops i r, decodeWord 0x08#6 ops = .ok (i, r) → ∃ b, i = .rxDiscard b) ∧
  (∀ (s : State) (b : Byte), s.state = .inactive → exec (.rxDiscard b) s = .next s)

/-- R89, R92, R95, R105: RX_ADDR stores the zero-extended byte as the address, takes the application's
answer to `Start` of it as the buffers, enters `Transferring` and fills every free transmit slot from
the transmit stream; nothing else changes, `rxCount` among it (where the answer comes from: log 17). -/
def Obligations.RxAddrOpensTransaction : Prop :=
  ∀ (s : State) (b : Byte), s.state = .waitingAddress →
    let a : RegAddr := b.setWidth 16
    let w := (answerOf s a).1
    let d : Buffers := ⟨w.txBase, w.tx.length, w.rxBase, w.rx.length⟩
    exec (.rxAddr b) s = .next { s with
      addr := some a, bufs := some d, state := .transferring,
      txMem := Memory.load s.txMem w.txBase w.tx, rxMem := Memory.load s.rxMem w.rxBase w.rx,
      script := (answerOf s a).2, startCalls := s.startCalls + 1,
      trace := s.trace ++ [.start s.cbStart a],
      txq := s.txq ++ stream d (Memory.load s.txMem w.txBase w.tx) s.txCount (s.cfg.txDepth - s.txq.length),
      txCount := s.txCount + (s.cfg.txDepth - s.txq.length) }

/-- R90, R92: RX_DATA, dispatch word 0x0A, stores the byte at `rx[rxCount]` if `rxCount < rx.length`,
counts it always, and primes every free transmit slot from the transmit stream; nothing else changes. -/
def Obligations.RxDataStoresCountsAndPrimes : Prop :=
  dispatchWord Event.rxByte.code TransactionState.transferring.code = 0x0A#6 ∧
  (∀ ops i r, decodeWord 0x0A#6 ops = .ok (i, r) → ∃ b, i = .rxData b) ∧
  (∀ (s : State) (b : Byte) (d : Buffers), s.state = .transferring → s.bufs = some d →
    exec (.rxData b) s = .next { s with
      rxMem := if s.rxCount < d.rxLen then Memory.write s.rxMem (d.rxBase + s.rxCount) b else s.rxMem,
      rxCount := s.rxCount + 1,
      txq := s.txq ++ stream d s.txMem s.txCount (s.cfg.txDepth - s.txq.length),
      txCount := s.txCount + (s.cfg.txDepth - s.txq.length) })

/-- R90, R33, R45: in a receive memory of canonical form, of all its bytes RX_DATA changes only the byte
at `rx[rxCount]`, which then reads as the received byte, and past the capacity it changes none. -/
def Obligations.RxDataWritesOneByteInBounds : Prop :=
  ∀ (s t : State) (b : Byte) (d : Buffers), s.rxMem.wf → s.bufs = some d →
    exec (.rxData b) s = .next t →
    (s.rxCount < d.rxLen → Memory.read t.rxMem (d.rxBase + s.rxCount) = b) ∧
    (∀ a, (s.rxCount < d.rxLen → a ≠ d.rxBase + s.rxCount) →
      Memory.read t.rxMem a = Memory.read s.rxMem a)

/-- R91: TX_PRIME, dispatch word 0x0E, pushes `tx[txCount]` if `txCount < tx.length`, else 0x00, and
counts it; nothing else changes. -/
def Obligations.TxPrimePushesNextByte : Prop :=
  dispatchWord Event.txSlot.code TransactionState.transferring.code = 0x0E#6 ∧
  (∀ ops, decodeWord 0x0E#6 ops = .ok (.txPrime, ops)) ∧
  (∀ (s : State) (d : Buffers), s.state = .transferring → s.bufs = some d →
    s.txq.length < s.cfg.txDepth →
    exec .txPrime s = .next { s with
      txq := s.txq ++ [if s.txCount < d.txLen then Memory.read s.txMem (d.txBase + s.txCount) else 0x00#8],
      txCount := s.txCount + 1 })

/-- R87: PUMP with no received byte does nothing, in every state (the spec's decision D11). -/
def Obligations.PumpWithNothingReceivedDoesNothing : Prop :=
  ∀ s : State, s.rxq = [] → exec .pump s = .next s

/-- R153: bytes that wait while the engine is `Inactive` are drained: no callback, no counter effect, no
priming, nothing but the queue changed. -/
def Obligations.SpuriousBytesAreDrained : Prop :=
  ∀ s : State, s.state = .inactive → exec .pump s = .next { s with rxq := [] }

/-- R86: PUMP pops the oldest byte, runs the receive operation of the state as it is then, and goes on
with the rest; a stop of that operation would end it. -/
def Obligations.PumpTakesOldestByteFirst : Prop :=
  ∀ (s : State) (b : Byte) (q : List Byte), s.rxq = b :: q →
    exec .pump s =
      andThen (exec (match s.state with
          | .inactive => .rxDiscard b
          | .waitingAddress => .rxAddr b
          | .transferring => .rxData b) { s with rxq := q })
        (fun t => exec .pump t)

/-- R86, R153, R96: from every state that meets R24, PUMP answers a next state with the queue empty: in
`Inactive` nothing else changed; in `WaitingAddress` the first byte became the address and the rest
data; in `Transferring` every byte was counted. Nothing outside the transaction changes. -/
def Obligations.PumpDrainsEveryByte : Prop :=
  ∀ s : State, (s.state = .transferring → s.bufs.isSome) →
    ∃ t, exec .pump s = .next t ∧ t.rxq = [] ∧
      (s.state = .inactive → t = { s with rxq := [] }) ∧
      (s.state = .waitingAddress → ∀ b q, s.rxq = b :: q →
        t.state = .transferring ∧ t.addr = some (b.setWidth 16) ∧ t.rxCount = s.rxCount + q.length) ∧
      (s.state = .transferring → t.state = .transferring ∧ t.addr = s.addr ∧ t.bufs = s.bufs ∧
        t.rxCount = s.rxCount + s.rxq.length) ∧
      (t.constructed = s.constructed ∧ t.diag = s.diag ∧ t.selQ = s.selQ ∧ t.binding = s.binding ∧
        t.cbStart = s.cbStart ∧ t.cbEnd = s.cbEnd ∧ t.shift = s.shift ∧ t.residue = s.residue ∧ t.inner = s.inner ∧
        t.selN = s.selN ∧ t.pendingSel = s.pendingSel ∧ t.irqEnabled = s.irqEnabled ∧
        t.frameIdx = s.frameIdx ∧ t.draws = s.draws ∧ t.wire = s.wire ∧ t.inputs = s.inputs ∧ t.cfg = s.cfg)

/-- R97: one PUMP that finds `q1 ++ q2` is a PUMP that finds `q1` and then one that finds `q2`. -/
def Obligations.PumpSplits : Prop :=
  ∀ (s : State) (q1 q2 : List Byte), s.rxq = q1 ++ q2 →
    exec .pump s =
      andThen (exec .pump { s with rxq := q1 }) (fun t => exec .pump { t with rxq := t.rxq ++ q2 })

/-- R90, R95, R96, R45 over a whole PUMP in `Transferring`: byte i of the queue is in
`rx[rxCount + i]` where that is in range, every other byte of receive memory is unchanged, and what
was pushed is the transmit stream. -/
def Obligations.PumpStoresInOrderAndPrimesTheStream : Prop :=
  ∀ (s t : State) (d : Buffers), s.rxMem.wf → s.state = .transferring → s.bufs = some d →
    exec .pump s = .next t →
    (∀ i, (h : i < s.rxq.length) → s.rxCount + i < d.rxLen →
      Memory.read t.rxMem (d.rxBase + (s.rxCount + i)) = s.rxq[i]) ∧
    (∀ a, (∀ i, i < s.rxq.length → s.rxCount + i < d.rxLen → a ≠ d.rxBase + (s.rxCount + i)) →
      Memory.read t.rxMem a = Memory.read s.rxMem a) ∧
    (t.txMem = s.txMem ∧ s.txCount ≤ t.txCount ∧
      t.txq = s.txq ++ stream d s.txMem s.txCount (t.txCount - s.txCount))

/-! ## The host handshake -/

/-- R105: CB_START hands `addr` to the start callback and takes its answer as the buffers; the state is
still `WaitingAddress`. The memories hold the bytes the application put there (log 17). -/
def Obligations.CbStartTakesTheBuffers : Prop :=
  ∀ (s : State) (a : RegAddr), s.state = .waitingAddress → s.addr = some a →
    let w := (answerOf s a).1
    exec .cbStart s = .next { s with
      bufs := some ⟨w.txBase, w.tx.length, w.rxBase, w.rx.length⟩,
      txMem := Memory.load s.txMem w.txBase w.tx, rxMem := Memory.load s.rxMem w.rxBase w.rx,
      script := (answerOf s a).2, startCalls := s.startCalls + 1,
      trace := s.trace ++ [.start s.cbStart a] }

/-- R105, R61, VH8: the answer to `Start` is the first scripted one for the callback and the address,
wherever it stands, and only that row is used up; with none scripted it is the application's free one
(log 17). The bytes of the answer are what the two buffers then read as, in a memory of canonical form. -/
def Obligations.StartAnswersAreReadBack : Prop :=
  (∀ (s : State) (a : RegAddr) (w : StartAnswer) (pre post : List ScriptRow),
    s.script = pre ++ ⟨s.cbStart, a, w⟩ :: post →
    (∀ r ∈ pre, ¬(r.handle = s.cbStart ∧ r.address = a)) → answerOf s a = (w, pre ++ post)) ∧
  (∀ (s : State) (a : RegAddr), (∀ r ∈ s.script, ¬(r.handle = s.cbStart ∧ r.address = a)) →
    answerOf s a = (Config.startAnswer s.cbStart s.startCalls a, s.script)) ∧
  (∀ (m : Memory) (base : Nat) (bytes : List Byte), m.wf →
    (∀ i, (h : i < bytes.length) → Memory.read (Memory.load m base bytes) (base + i) = bytes[i]) ∧
    (∀ a, (a < base ∨ base + bytes.length ≤ a) →
      Memory.read (Memory.load m base bytes) a = Memory.read m a))

/-- R108, R55: CB_END hands `addr` and `rxCount` to the end callback and changes nothing. -/
def Obligations.CbEndReportsAddressAndCount : Prop :=
  ∀ (s : State) (a : RegAddr), s.state = .transferring → s.addr = some a →
    exec .cbEnd s = .next { s with trace := s.trace ++ [.finish s.cbEnd a (s.rxCount : Int)] }

/-- R111: where no engine exists CONSTRUCT with a binding that resolves builds it: every field of the engine
has its value after construction and the peripheral is empty (the values are the spec's choice, D10; that
no event is posted is log 9). -/
def Obligations.ConstructBuildsTheEngine : Prop :=
  ∀ (s : State) (binding : Binding) (f g : Nat), s.constructed = false → binding ∈ s.cfg.bindings →
    exec (.construct binding f g) s = .next { s with
      constructed := true,
      binding := binding, cbStart := f, cbEnd := g, state := .inactive, addr := none, bufs := none,
      txCount := 0, rxCount := 0, diag := true, rxq := [], txq := [], shift := none,
      residue := [], selQ := s.selN, pendingSel := [], irqEnabled := true }

/-- R112, R151: CONSTRUCT with a binding that does not resolve aborts, and only it ever does. -/
def Obligations.OnlyUnresolvedConstructAborts : Prop :=
  (∀ (s : State) (binding : Binding) (f g : Nat), s.constructed = false → binding ∉ s.cfg.bindings →
    exec (.construct binding f g) s = .fault .configurationError) ∧
  (∀ (s : State) (i : Instr), exec i s = .fault .configurationError →
    ∃ binding f g, i = .construct binding f g ∧ binding ∉ s.cfg.bindings ∧ s.constructed = false)

/-- R114: DIAG_TICK sets `diag` and changes nothing else. -/
def Obligations.DiagTickRaisesIndicator : Prop :=
  ∀ s : State, exec .diagTick s = .next { s with diag := true }

/-! ## The peripheral and the wire -/

/-- R130: P_REINIT empties both queues, the shifter and its residue, so that nothing is received and
every transmit slot is free, and touches no field of the engine. -/
def Obligations.ReinitEmptiesThePeripheral : Prop :=
  ∀ s : State, ∃ t, exec .pReinit s = .next t ∧
    t = { s with rxq := [], txq := [], shift := none, residue := [] } ∧
    rxAvail t = false ∧ freeSlots t = s.cfg.txDepth

/-- R134, R139, R51: between words, with room in the receive queue, a wire byte of either kind takes
the head of the transmit path, puts its bits on `sdo` and the master's on `sdi` most significant
first, `sclk` low and then high in each clock period (log 31), and appends the master's byte to the
receive queue. -/
def Obligations.WireByteExchangesOneWord : Prop :=
  ∀ (s : State) (m v : Byte) (q : List Byte), s.shift = none → s.txq = v :: q →
    s.rxq.length < s.cfg.rxDepth →
    let t : State := { s with
      txq := q, rxq := s.rxq ++ [m],
      frameIdx := if s.selN then s.frameIdx else s.frameIdx + 1,
      trace := s.trace ++ [.word m v],
      wire := s.wire ++ (List.range 8).flatMap (fun k =>
        [⟨false, m.getLsbD (7 - k), v.getLsbD (7 - k)⟩, ⟨true, m.getLsbD (7 - k), v.getLsbD (7 - k)⟩]) }
    exec (.wireAddr m) s = .next t ∧ exec (.wireData m) s = .next t

/-- R135, U1: with the transmit path empty the same happens with a byte nothing constrains (the free
value of log 20), one draw later. -/
def Obligations.WireByteUnderrunSendsFreeByte : Prop :=
  ∀ (s : State) (m : Byte), s.shift = none → s.txq = [] → s.rxq.length < s.cfg.rxDepth →
    let v := Config.underrunByte s.draws
    let t : State := { s with
      rxq := s.rxq ++ [m], draws := s.draws + 1,
      frameIdx := if s.selN then s.frameIdx else s.frameIdx + 1,
      trace := s.trace ++ [.word m v],
      wire := s.wire ++ (List.range 8).flatMap (fun k =>
        [⟨false, m.getLsbD (7 - k), v.getLsbD (7 - k)⟩, ⟨true, m.getLsbD (7 - k), v.getLsbD (7 - k)⟩]) }
    exec (.wireAddr m) s = .next t ∧ exec (.wireData m) s = .next t

/-- R136, U2, U3: the two faults of the environment contract: a word that completes with the receive
queue full, and a push with no free slot. -/
def Obligations.ContractViolationsFault : Prop :=
  (∀ (s : State) (m : Byte), s.shift = none → s.cfg.rxDepth ≤ s.rxq.length →
    exec (.wireAddr m) s = .fault .rxOverrun ∧ exec (.wireData m) s = .fault .rxOverrun) ∧
  (∀ s : State, s.state = .inactive → s.cfg.txDepth ≤ s.txq.length →
    exec .selAssert s = .fault .pushNoSlot) ∧
  (∀ s : State, s.state = .transferring → s.bufs.isSome → s.cfg.txDepth ≤ s.txq.length →
    exec .txPrime s = .fault .pushNoSlot)

/-- R35, R134, R139, U6 (the spec's decision D23): fewer than eight clock periods from between words
deliver no byte. They take the byte to send, as a whole word does (a free one where there is none, log
20), put its first bits on `sdo`, keep the sampled bits in the shifter, and change nothing else: no
field of the engine, no memory, no queue of received bytes; with no period nothing changes. P_REINIT
drops them. -/
def Obligations.PartialWordIsNeverReceived : Prop :=
  ∀ (s : State) (bits : List Bool), s.shift = none → bits.length < 8 →
    let v := s.txq.headD (Config.underrunByte s.draws)
    let t : State := if bits = [] then s else { s with
      txq := s.txq.tail,
      draws := if s.txq = [] then s.draws + 1 else s.draws,
      shift := some ⟨bits, v⟩,
      wire := s.wire ++ (bits.mapIdx (fun k b =>
        [⟨false, b, v.getLsbD (7 - k)⟩, ⟨true, b, v.getLsbD (7 - k)⟩])).flatten }
    clockBits bits s = .next t ∧
    exec .pReinit t = .next { t with rxq := [], txq := [], shift := none, residue := [] }

/-- R134, R61 ("The engine does not step"): a wire byte, in any state of the shifter, changes no field
of the engine, no memory, no pending edge and no configuration. -/
def Obligations.ClockingLeavesTheEngineAlone : Prop :=
  ∀ (s t : State) (m : Byte), (exec (.wireAddr m) s = .next t ∨ exec (.wireData m) s = .next t) →
    t.constructed = s.constructed ∧ t.state = s.state ∧ t.addr = s.addr ∧ t.txCount = s.txCount ∧
    t.rxCount = s.rxCount ∧ t.bufs = s.bufs ∧ t.selQ = s.selQ ∧ t.diag = s.diag ∧ t.binding = s.binding ∧
    t.cbStart = s.cbStart ∧ t.cbEnd = s.cbEnd ∧ t.selN = s.selN ∧ t.pendingSel = s.pendingSel ∧
    t.irqEnabled = s.irqEnabled ∧ t.script = s.script ∧ t.startCalls = s.startCalls ∧
    t.inner = s.inner ∧ t.residue = s.residue ∧ t.inputs = s.inputs ∧ t.cfg = s.cfg ∧
    (∀ a, Memory.read t.txMem a = Memory.read s.txMem a) ∧
    (∀ a, Memory.read t.rxMem a = Memory.read s.rxMem a)

/-! ## Whole-machine rules -/

/-- An operation whose row names a state (R58), asked for in another one, is refused by the state it
requires, and nothing happens. That this `require` is a refusal is the model's (log 24): R58 and R59
speak of dispatch words, and no dispatch word selects an operation in a state its row does not name. -/
def Obligations.OperationsBelongToTheirState : Prop :=
  ∀ (s : State) (b : Byte),
    (s.state ≠ .inactive → ∀ i ∈ [Instr.selAssert, .selDeassertI, .rxDiscard b],
      exec i s = .refused (.notInState .inactive)) ∧
    (s.state ≠ .waitingAddress → ∀ i ∈ [Instr.selReassertW, .selDeassertW, .rxAddr b, .cbStart],
      exec i s = .refused (.notInState .waitingAddress)) ∧
    (s.state ≠ .transferring → ∀ i ∈ [Instr.selReassertT, .selDeassertT, .rxData b, .txPrime, .cbEnd],
      exec i s = .refused (.notInState .transferring))

/-- R12, R58: `state` moves only along the transitions of the state-machine table (and to `Inactive` at
construction). -/
def Obligations.StateMovesAlongTheTable : Prop :=
  ∀ (i : Instr) (s t : State), exec i s = .next t → t.state ≠ s.state →
    (i = .selAssert ∧ s.state = .inactive ∧ t.state = .waitingAddress) ∨
    (((∃ b, i = .rxAddr b) ∨ i = .pump) ∧ s.state = .waitingAddress ∧ t.state = .transferring) ∨
    (i = .selDeassertW ∧ s.state = .waitingAddress ∧ t.state = .inactive) ∨
    (i = .selDeassertT ∧ s.state = .transferring ∧ t.state = .inactive) ∨
    ((∃ n f g, i = .construct n f g) ∧ s.constructed = false ∧ t.state = .inactive)

/-- R25: `rxCount` changes only in RX_DATA (on its own or in PUMP), `txCount` only where TX_PRIME runs,
and neither decreases, but for SEL_ASSERT and construction, which leave both 0. -/
def Obligations.CountersOnlyGrow : Prop :=
  ∀ (i : Instr) (s t : State), exec i s = .next t →
    ((i = .selAssert ∨ ∃ n f g, i = .construct n f g) ∧ t.txCount = 0 ∧ t.rxCount = 0) ∨
    (s.txCount ≤ t.txCount ∧ s.rxCount ≤ t.rxCount ∧
      (t.rxCount ≠ s.rxCount → (∃ b, i = .rxData b) ∨ i = .pump) ∧
      (t.txCount ≠ s.txCount → (∃ b, i = .rxData b) ∨ (∃ b, i = .rxAddr b) ∨ i = .pump ∨ i = .txPrime))

/-- R79: `diag` goes low in SEL_ASSERT and only there; the periodic task restores it high, whatever the
state; no other operation touches it but construction, which leaves it high. The last is not R79's: it
is the value R111 gives, the spec's own decisions D10 and D22. -/
def Obligations.DiagChangesOnlyWhereStated : Prop :=
  ∀ (i : Instr) (s t : State), exec i s = .next t →
    (i = .selAssert → t.diag = false) ∧
    (i = .diagTick → t.diag = true) ∧
    ((∃ n f g, i = .construct n f g) → t.diag = true) ∧
    (i ≠ .selAssert → i ≠ .diagTick → (∀ n f g, i ≠ .construct n f g) → t.diag = s.diag)

/-- R18, R114: `diag` is read by nothing: whatever its level, every operation ends the same way and
gives the same state but for `diag`. -/
def Obligations.DiagInfluencesNothing : Prop :=
  ∀ (i : Instr) (s : State) (d : Bool),
    mapNext (fun t => { t with diag := true }) (exec i { s with diag := d }) =
      mapNext (fun t => { t with diag := true }) (exec i s)

/-- R19, R113, R27: only CONSTRUCT, and only where no engine exists, changes the callbacks, the binding, the
interrupt enable, `sel_q` and the pending edges; nothing changes the open parameters, the schedule or the
select line. -/
def Obligations.OnlyConstructConfigures : Prop :=
  ∀ (i : Instr) (s t : State), exec i s = .next t →
    t.cfg = s.cfg ∧ t.inputs = s.inputs ∧ t.inner = s.inner ∧ t.selN = s.selN ∧
    ((s.constructed = true ∨ ∀ n f g, i ≠ .construct n f g) → t.constructed = s.constructed ∧
      t.binding = s.binding ∧ t.cbStart = s.cbStart ∧ t.cbEnd = s.cbEnd ∧ t.selQ = s.selQ ∧
      t.pendingSel = s.pendingSel ∧ t.irqEnabled = s.irqEnabled)

/-- R32, R33, R39: an operation that makes no call of `Start` leaves every byte of the transmit memory
as it was, and one that is neither RX_DATA nor PUMP every byte of the receive memory too. -/
def Obligations.MemoryChangesOnlyWhereStated : Prop :=
  ∀ (i : Instr) (s t : State), exec i s = .next t → t.startCalls = s.startCalls →
    (∀ a, Memory.read t.txMem a = Memory.read s.txMem a) ∧
    ((∀ b, i ≠ .rxData b) → i ≠ .pump → ∀ a, Memory.read t.rxMem a = Memory.read s.rxMem a)

/-- R107, R109, R26: an operation adds to the trace at most one `Start`, and that only in the address
phase, at most one `End`, and that only at the deassertion of `Transferring`, and a word only on the
wire. -/
def Obligations.CallsHappenOnlyWhereStated : Prop :=
  ∀ (i : Instr) (s t : State), exec i s = .next t →
    t.trace = s.trace ∨
    (∃ h a, t.trace = s.trace ++ [.start h a] ∧ s.state = .waitingAddress ∧
      ((∃ b, i = .rxAddr b) ∨ i = .pump ∨ i = .cbStart)) ∨
    (∃ h a n, t.trace = s.trace ++ [.finish h a n] ∧ s.state = .transferring ∧
      (i = .selDeassertT ∨ i = .cbEnd)) ∨
    (∃ m v, t.trace = s.trace ++ [.word m v] ∧ ((∃ b, i = .wireAddr b) ∨ ∃ b, i = .wireData b))

/-- R117: what an earlier transaction left in the counters, `addr` and `bufs` reaches nothing. A run of any
length from `Inactive`, whatever the environment does, ends the same way whatever the counters were,
and gives the same state but for the counters while it is still, or again, `Inactive`; and RX_ADDR gives
the same whatever address and buffers it finds. -/
def Obligations.TransactionsAreIndependent : Prop :=
  let visible (t : State) : State :=
    if t.state = .inactive then { t with txCount := 0, rxCount := 0 } else t
  (∀ (k : Nat) (s : State) (n m : Nat), s.state = .inactive →
    mapNext visible (Host.Core.run core k { s with txCount := n, rxCount := m }) =
      mapNext visible (Host.Core.run core k s)) ∧
  (∀ (s : State) (b : Byte) (x : Option RegAddr) (y : Option Buffers),
    exec (.rxAddr b) { s with addr := x, bufs := y } = exec (.rxAddr b) s)

/-! ## Headline results -/

/-- R149, R150, R191: from every state that meets the invariant, servicing an interrupt always answers a
next state: no handler ever faults, is refused or fails to end. -/
def Obligations.HandlersAlwaysComplete : Prop :=
  ∀ (s : State) (source : Irq) (more : List Input), Invariant s → s.inputs = .service source :: more →
    ∃ t, step s = .next t ∧ Invariant t

/-- R135, R136, R137, R94: a timely schedule from between transactions runs to its end for every queue
depth, every application and every word the master clocks, so nothing overruns; no step with the line
asserted draws an underrun byte, and none at all where no word is clocked with the line deasserted
(R140); and there, whenever a transaction is under way with its words pumped, `txCount = rxCount +
TX_DEPTH`. That the schedule stands for the deadlines is log 38, what it leaves out log 42. -/
def Obligations.TimelyRunsNeverUnderrun : Prop :=
  ∀ (s : State) (schedule : List Input) (p : Timing), Idle s → TimelyTo schedule p →
    s.inputs = schedule →
    ∃ t, Host.Core.run core schedule.length s = .next t ∧
      (∀ j u v, j < schedule.length → Host.Core.run core j s = .next u → step u = .next v →
        u.selN = false → v.draws = u.draws) ∧
      (p.outside = 0 → t.draws = s.draws ∧
        (t.state = .transferring → t.txCount = t.rxCount + t.cfg.txDepth))

/-- R138, R53, R95, R96, R98: a whole transaction from between transactions. The master receives 0x00
and then the transmit stream; `Start` is called once, after the address word, `End` once, last, with
the number of data words; `rx` holds the data bytes up to its capacity and is otherwise as `Start`
left it; the engine is idle again. -/
def Obligations.TransactionIsAFunctionOfItsFrame : Prop :=
  ∀ (s : State) (a : Byte) (ds : List Byte) (more : List Input), Invariant s → Idle s →
    s.inputs = txnLine a ds ++ more →
    let w := (answerOf s (a.setWidth 16)).1
    ∃ t, Host.Core.run core (txnLine a ds).length s = .next t ∧
      t.trace = s.trace ++ [.word a 0x00#8, .start s.cbStart (a.setWidth 16)] ++
        ds.mapIdx (fun i m => .word m (w.tx.getD i 0x00#8)) ++
        [.finish s.cbEnd (a.setWidth 16) (ds.length : Int)] ∧
      (∀ i, (h : i < ds.length) → i < w.rx.length → Memory.read t.rxMem (w.rxBase + i) = ds[i]) ∧
      (∀ x, (∀ i, i < ds.length → i < w.rx.length → x ≠ w.rxBase + i) →
        Memory.read t.rxMem x = Memory.read (Memory.load s.rxMem w.rxBase w.rx) x) ∧
      t.rxCount = ds.length ∧ t.txCount = ds.length + s.cfg.txDepth ∧
      t.inputs = more ∧ t.draws = s.draws ∧ Idle t ∧ Invariant t

/-- R138, R109, S3: an empty select cycle makes no call and leaves the engine idle. -/
def Obligations.EmptyCycleLeavesNoTrace : Prop :=
  ∀ (s : State) (more : List Input), Idle s → s.inputs = nullTxnLine ++ more →
    ∃ t, Host.Core.run core nullTxnLine.length s = .next t ∧ t.trace = s.trace ∧
      t.txCount = 0 ∧ t.rxCount = 0 ∧ t.inputs = more ∧ Idle t

/-! ## Clock periods, cut words, calls per cycle, timely lines -/

/-- R139, R134, R136: one clock period in the middle of a word. The bit of the byte being sent is on
`sdo`; the master's bit is sampled. Before the eighth period the word goes on; with the eighth the byte
of the eight bits, first bit most significant, joins the receive queue, or finds it full, which is the
overrun fault. Nothing else changes. -/
def Obligations.ClockedBitIsOnePeriod : Prop :=
  ∀ (s : State) (b : Bool) (w : PartialWord), s.shift = some w →
    let lines : List Lines :=
      [⟨false, b, w.sending.getLsbD (7 - w.sampled.length)⟩,
       ⟨true, b, w.sending.getLsbD (7 - w.sampled.length)⟩]
    (w.sampled.length < 7 → clockBit b s = .next { s with
      shift := some ⟨w.sampled ++ [b], w.sending⟩, wire := s.wire ++ lines }) ∧
    (∀ m : Byte, (List.range 8).map (fun k => m.getLsbD (7 - k)) = w.sampled ++ [b] →
      (s.rxq.length < s.cfg.rxDepth → clockBit b s = .next { s with
        shift := none, wire := s.wire ++ lines, rxq := s.rxq ++ [m],
        frameIdx := if s.selN then s.frameIdx else s.frameIdx + 1,
        trace := s.trace ++ [.word m w.sending] }) ∧
      (s.cfg.rxDepth ≤ s.rxq.length → clockBit b s = .fault .rxOverrun))

/-- R35, R44, U6 (the spec's decision D23): the bits of a word that an edge of `sel_n` cuts off never become
a received byte, nor part of one. After the edge they are residue; the next whole word is received as it
is; fewer than eight further periods deliver nothing; P_REINIT clears it all. -/
def Obligations.EdgeCutsOffAPartialWord : Prop :=
  ∀ (s : State) (w : PartialWord) (level : Bool) (more : List Input), s.inner = none →
    s.inputs = .sel level :: more → s.selN ≠ level → s.shift = some w →
    ∃ t, step s = .next t ∧ t.shift = none ∧ t.residue = s.residue ++ [w] ∧ t.rxq = s.rxq ∧
      t.txq = s.txq ∧ t.trace = s.trace ∧
      (s.rxq.length < s.cfg.rxDepth → ∀ m, ∃ u, exec (.wireData m) t = .next u ∧ u.rxq = s.rxq ++ [m]) ∧
      (∀ bits : List Bool, bits.length < 8 →
        ∃ u, clockBits bits t = .next u ∧ u.rxq = s.rxq ∧ u.trace = s.trace) ∧
      (∃ u, exec .pReinit t = .next u ∧ u.shift = none ∧ u.residue = [] ∧ u.rxq = [])

/-- R26, R107, R109: in a run that does not arm the engine again, so within one select cycle, `Start` is
called at most once and only from `WaitingAddress`, `End` at most once, only if the cycle reached
`Transferring` and with the address `Start` had; whatever the environment does. -/
def Obligations.CallbacksFireOncePerCycle : Prop :=
  ∀ (k : Nat) (s t : State), Invariant s → Host.Core.run core k s = .next t →
    (∀ j u v, j < k → Host.Core.run core j s = .next u → step u = .next v → ¬arms u v) →
    ∃ new, t.trace = s.trace ++ new ∧
      (s.state = .inactive → callsOf new = []) ∧
      (s.state = .waitingAddress →
        callsOf new = [] ∨
        (∃ a, callsOf new = [.start s.cbStart a]) ∨
        (∃ a n, callsOf new = [.start s.cbStart a, .finish s.cbEnd a n])) ∧
      (∀ a, s.state = .transferring → s.addr = some a →
        callsOf new = [] ∨ ∃ n, callsOf new = [.finish s.cbEnd a n])

/-- R137, R62: the lines of the trace notation are timely by construction, one after another in any
number: TXN, NULLTXN, TICK, and XFER between transactions, which is the only one of them that clocks a
word with the line deasserted. The statement speaks of the schedule predicate only, not of a step. R137
names XFER and TXN; that TimelyTo stands for R137 is log 38 (DEDUCED), and that it admits TICK and words
clocked with the line deasserted, which it counts, is the model's choice (log 42). -/
def Obligations.TraceLinesAreTimely : Prop :=
  ∀ lines : List (List Input),
    (∀ l ∈ lines, (∃ a ds, l = txnLine a ds) ∨ l = nullTxnLine ∨ l = tickLine ∨ ∃ m, l = xferLine m) →
    ∃ p, TimelyTo lines.flatten p ∧ p.low = false ∧ p.posted = [] ∧
      ((∀ m, xferLine m ∉ lines) → p.outside = 0)

/-! ## No teardown -/

/-- R179, R111, R113, R148: an engine is built once. Where one exists CONSTRUCT is refused (log 8), and every
step, whatever the environment does, leaves it existing, with its interrupts enabled as they were and with
its binding and its callbacks: nothing disables it, changes its callbacks or releases the peripheral. Where
none exists, only CONSTRUCT makes one, and no other instruction's completion does. -/
def Obligations.EngineIsBuiltOnceAndStays : Prop :=
  (∀ (s : State) (binding : Binding) (f g : Nat), s.constructed = true →
    exec (.construct binding f g) s = .refused .alreadyConstructed) ∧
  (∀ s t : State, s.constructed = true → step s = .next t →
    t.constructed = true ∧ t.irqEnabled = s.irqEnabled ∧ t.binding = s.binding ∧
    t.cbStart = s.cbStart ∧ t.cbEnd = s.cbEnd) ∧
  (∀ (i : Instr) (s t : State), exec i s = .next t → s.constructed = false →
    (t.constructed = true ↔ ∃ binding f g, i = .construct binding f g))
end

