-- ==== Sys2Proof/Laws/Memory.lean ====
section
/-! SUPPORT. Memory: a read after a write, and the canonical form kept by every operation. -/

namespace Sys2Proof.Machine

theorem Memory.read_of_lt {m : Memory} {a : Nat} (h : ∀ c ∈ m, a < c.1) :
    Memory.read m a = unwritten := by
  induction m with
  | nil => rfl
  | cons c m ih =>
    have hc := h c (by simp)
    simp only [Memory.read, if_neg (Nat.ne_of_gt hc)]
    exact ih fun d hd => h d (by simp [hd])

theorem Memory.read_cell_same (m : Memory) (a : Nat) (v : Byte) (h : ∀ c ∈ m, a < c.1) :
    Memory.read (Memory.cell a v m) a = v := by
  unfold Memory.cell
  split
  · next hv => rw [Memory.read_of_lt h, hv]
  · simp [Memory.read]

theorem Memory.read_cell_other (m : Memory) {a x : Nat} (v : Byte) (h : x ≠ a) :
    Memory.read (Memory.cell a v m) x = Memory.read m x := by
  unfold Memory.cell
  split
  · rfl
  · simp [Memory.read, Ne.symm h]

/-- The cells of a written memory are the new one and old ones at other addresses. -/
theorem Memory.mem_write {m : Memory} {a : Nat} {v : Byte} {c : Host.Cell}
    (h : c ∈ Memory.write m a v) : (c = (a, v) ∧ v ≠ unwritten) ∨ c ∈ m := by
  induction m with
  | nil =>
    simp only [Memory.write, Memory.cell] at h
    split at h
    · simp at h
    · next hv => left; exact ⟨by simpa using h, hv⟩
  | cons d m ih =>
    simp only [Memory.write, Memory.cell] at h
    split at h
    · split at h
      · exact .inr h
      · next hv =>
        rcases List.mem_cons.1 h with h | h
        · exact .inl ⟨h, hv⟩
        · exact .inr h
    · split at h
      · split at h
        · exact .inr (List.mem_cons_of_mem _ h)
        · next hv =>
          rcases List.mem_cons.1 h with h | h
          · exact .inl ⟨h, hv⟩
          · exact .inr (List.mem_cons_of_mem _ h)
      · rcases List.mem_cons.1 h with h | h
        · exact .inr (by simp [h])
        · rcases ih h with h | h
          · exact .inl h
          · exact .inr (List.mem_cons_of_mem _ h)

/-- A write keeps the canonical form. -/
theorem Memory.write_wf {m : Memory} (hm : m.wf) (a : Nat) (v : Byte) : (Memory.write m a v).wf := by
  refine ⟨?_, fun c hc => ?_⟩
  · have hs := hm.1
    induction m with
    | nil =>
      simp only [Memory.write, Memory.cell]
      split <;> simp
    | cons d m ih =>
      have hd := List.pairwise_cons.1 hs
      simp only [Memory.write, Memory.cell]
      split
      · next hlt =>
        split
        · exact hs
        · refine List.pairwise_cons.2 ⟨fun c hc => ?_, hs⟩
          rcases List.mem_cons.1 hc with rfl | hc
          · exact hlt
          · exact Nat.lt_trans hlt (hd.1 c hc)
      · next hnl =>
        split
        · next he =>
          split
          · exact hd.2
          · exact List.pairwise_cons.2 ⟨fun c hc => he ▸ hd.1 c hc, hd.2⟩
        · next hne =>
          refine List.pairwise_cons.2 ⟨fun c hc => ?_, ih ⟨hd.2, fun c hc => hm.2 c (by simp [hc])⟩ hd.2⟩
          rcases Memory.mem_write hc with ⟨rfl, -⟩ | hc
          · show d.1 < a
            omega
          · exact hd.1 c hc
  · rcases Memory.mem_write hc with ⟨rfl, hv⟩ | hc
    · exact hv
    · exact hm.2 c hc

/-- Loading bytes keeps the canonical form. -/
theorem Memory.load_wf {m : Memory} (hm : m.wf) (base : Nat) (bytes : List Byte) :
    (Memory.load m base bytes).wf := by
  induction bytes generalizing m base with
  | nil => exact hm
  | cons b bytes ih => exact ih (Memory.write_wf hm base b) (base + 1)

/-- A write leaves every other address alone, in any memory. -/
theorem Memory.read_write_other (m : Memory) {a x : Nat} (v : Byte) (h : x ≠ a) :
    Memory.read (Memory.write m a v) x = Memory.read m x := by
  induction m with
  | nil => exact Memory.read_cell_other [] v h
  | cons d m ih =>
    simp only [Memory.write]
    split
    · exact Memory.read_cell_other _ v h
    · split
      · next he =>
        rw [Memory.read_cell_other _ v h, Memory.read, if_neg (he ▸ Ne.symm h)]
      · simp only [Memory.read, ih]

/-- A written byte is read back, from a memory in canonical form. -/
theorem Memory.read_write_same {m : Memory} (hm : m.wf) (a : Nat) (v : Byte) :
    Memory.read (Memory.write m a v) a = v := by
  have hs := hm.1
  clear hm
  induction m with
  | nil => exact Memory.read_cell_same [] a v (by simp)
  | cons d m ih =>
    have hd := List.pairwise_cons.1 hs
    simp only [Memory.write]
    split
    · next hlt =>
      refine Memory.read_cell_same _ a v fun c hc => ?_
      rcases List.mem_cons.1 hc with rfl | hc
      · exact hlt
      · exact Nat.lt_trans hlt (hd.1 c hc)
    · split
      · next he => exact Memory.read_cell_same _ a v fun c hc => he ▸ hd.1 c hc
      · next hne => rw [Memory.read, if_neg (Ne.symm hne)]; exact ih hd.2

/-- Loading bytes leaves every address outside them alone. -/
theorem Memory.read_load_outside (m : Memory) (base : Nat) (bytes : List Byte) {x : Nat}
    (h : x < base ∨ base + bytes.length ≤ x) :
    Memory.read (Memory.load m base bytes) x = Memory.read m x := by
  induction bytes generalizing m base with
  | nil => rfl
  | cons b bytes ih =>
    simp only [List.length_cons] at h
    rw [Memory.load, ih _ _ (by omega), Memory.read_write_other _ _ (by omega)]

/-- Loaded bytes are read back, from a memory in canonical form. -/
theorem Memory.read_load_inside {m : Memory} (hm : m.wf) (base : Nat) (bytes : List Byte) (i : Nat)
    (h : i < bytes.length) : Memory.read (Memory.load m base bytes) (base + i) = bytes[i] := by
  induction bytes generalizing m base i with
  | nil => simp at h
  | cons b bytes ih =>
    rw [Memory.load]
    cases i with
    | zero =>
      rw [Memory.read_load_outside _ _ _ (by omega), Nat.add_zero, Memory.read_write_same hm]
      rfl
    | succ i =>
      have := ih (Memory.write_wf hm base b) (base + 1) i (by simpa using h)
      rwa [show base + (i + 1) = base + 1 + i by omega]

end Sys2Proof.Machine
end

