-- ==== Sys2Proof/Laws/State.lean ====
section
/-! SUPPORT. One lemma per field per named update of the state, true by rfl. -/

namespace Sys2Proof.Machine

@[simp] theorem reinitPort_constructed (s : State) : (reinitPort s).constructed = s.constructed := rfl
@[simp] theorem reinitPort_state (s : State) : (reinitPort s).state = s.state := rfl
@[simp] theorem reinitPort_addr (s : State) : (reinitPort s).addr = s.addr := rfl
@[simp] theorem reinitPort_txCount (s : State) : (reinitPort s).txCount = s.txCount := rfl
@[simp] theorem reinitPort_rxCount (s : State) : (reinitPort s).rxCount = s.rxCount := rfl
@[simp] theorem reinitPort_bufs (s : State) : (reinitPort s).bufs = s.bufs := rfl
@[simp] theorem reinitPort_selQ (s : State) : (reinitPort s).selQ = s.selQ := rfl
@[simp] theorem reinitPort_diag (s : State) : (reinitPort s).diag = s.diag := rfl
@[simp] theorem reinitPort_binding (s : State) : (reinitPort s).binding = s.binding := rfl
@[simp] theorem reinitPort_cbStart (s : State) : (reinitPort s).cbStart = s.cbStart := rfl
@[simp] theorem reinitPort_cbEnd (s : State) : (reinitPort s).cbEnd = s.cbEnd := rfl
@[simp] theorem reinitPort_rxq (s : State) : (reinitPort s).rxq = [] := rfl
@[simp] theorem reinitPort_txq (s : State) : (reinitPort s).txq = [] := rfl
@[simp] theorem reinitPort_shift (s : State) : (reinitPort s).shift = none := rfl
@[simp] theorem reinitPort_residue (s : State) : (reinitPort s).residue = [] := rfl
@[simp] theorem reinitPort_selN (s : State) : (reinitPort s).selN = s.selN := rfl
@[simp] theorem reinitPort_pendingSel (s : State) : (reinitPort s).pendingSel = s.pendingSel := rfl
@[simp] theorem reinitPort_irqEnabled (s : State) : (reinitPort s).irqEnabled = s.irqEnabled := rfl
@[simp] theorem reinitPort_frameIdx (s : State) : (reinitPort s).frameIdx = s.frameIdx := rfl
@[simp] theorem reinitPort_txMem (s : State) : (reinitPort s).txMem = s.txMem := rfl
@[simp] theorem reinitPort_rxMem (s : State) : (reinitPort s).rxMem = s.rxMem := rfl
@[simp] theorem reinitPort_script (s : State) : (reinitPort s).script = s.script := rfl
@[simp] theorem reinitPort_startCalls (s : State) : (reinitPort s).startCalls = s.startCalls := rfl
@[simp] theorem reinitPort_draws (s : State) : (reinitPort s).draws = s.draws := rfl
@[simp] theorem reinitPort_trace (s : State) : (reinitPort s).trace = s.trace := rfl
@[simp] theorem reinitPort_wire (s : State) : (reinitPort s).wire = s.wire := rfl
@[simp] theorem reinitPort_inputs (s : State) : (reinitPort s).inputs = s.inputs := rfl
@[simp] theorem reinitPort_inner (s : State) : (reinitPort s).inner = s.inner := rfl
@[simp] theorem reinitPort_cfg (s : State) : (reinitPort s).cfg = s.cfg := rfl

@[simp] theorem driveSelect_constructed (l : Bool) (s : State) : (driveSelect l s).constructed = s.constructed := rfl
@[simp] theorem driveSelect_state (l : Bool) (s : State) : (driveSelect l s).state = s.state := rfl
@[simp] theorem driveSelect_addr (l : Bool) (s : State) : (driveSelect l s).addr = s.addr := rfl
@[simp] theorem driveSelect_txCount (l : Bool) (s : State) : (driveSelect l s).txCount = s.txCount := rfl
@[simp] theorem driveSelect_rxCount (l : Bool) (s : State) : (driveSelect l s).rxCount = s.rxCount := rfl
@[simp] theorem driveSelect_bufs (l : Bool) (s : State) : (driveSelect l s).bufs = s.bufs := rfl
@[simp] theorem driveSelect_selQ (l : Bool) (s : State) : (driveSelect l s).selQ = l := rfl
@[simp] theorem driveSelect_diag (l : Bool) (s : State) : (driveSelect l s).diag = s.diag := rfl
@[simp] theorem driveSelect_binding (l : Bool) (s : State) : (driveSelect l s).binding = s.binding := rfl
@[simp] theorem driveSelect_cbStart (l : Bool) (s : State) : (driveSelect l s).cbStart = s.cbStart := rfl
@[simp] theorem driveSelect_cbEnd (l : Bool) (s : State) : (driveSelect l s).cbEnd = s.cbEnd := rfl
@[simp] theorem driveSelect_rxq (l : Bool) (s : State) : (driveSelect l s).rxq = s.rxq := rfl
@[simp] theorem driveSelect_txq (l : Bool) (s : State) : (driveSelect l s).txq = s.txq := rfl
@[simp] theorem driveSelect_shift (l : Bool) (s : State) : (driveSelect l s).shift = if s.selN = l then s.shift else none := rfl
@[simp] theorem driveSelect_residue (l : Bool) (s : State) : (driveSelect l s).residue = if s.selN = l then s.residue else s.residue ++ s.shift.toList := rfl
@[simp] theorem driveSelect_selN (l : Bool) (s : State) : (driveSelect l s).selN = l := rfl
@[simp] theorem driveSelect_pendingSel (l : Bool) (s : State) : (driveSelect l s).pendingSel =
    s.pendingSel ++ if s.constructed then edgeOf s.selQ l else [] := rfl
@[simp] theorem driveSelect_irqEnabled (l : Bool) (s : State) : (driveSelect l s).irqEnabled = s.irqEnabled := rfl
@[simp] theorem driveSelect_frameIdx (l : Bool) (s : State) : (driveSelect l s).frameIdx = if s.selN && !l then 0 else s.frameIdx := rfl
@[simp] theorem driveSelect_txMem (l : Bool) (s : State) : (driveSelect l s).txMem = s.txMem := rfl
@[simp] theorem driveSelect_rxMem (l : Bool) (s : State) : (driveSelect l s).rxMem = s.rxMem := rfl
@[simp] theorem driveSelect_script (l : Bool) (s : State) : (driveSelect l s).script = s.script := rfl
@[simp] theorem driveSelect_startCalls (l : Bool) (s : State) : (driveSelect l s).startCalls = s.startCalls := rfl
@[simp] theorem driveSelect_draws (l : Bool) (s : State) : (driveSelect l s).draws = s.draws := rfl
@[simp] theorem driveSelect_trace (l : Bool) (s : State) : (driveSelect l s).trace = s.trace := rfl
@[simp] theorem driveSelect_wire (l : Bool) (s : State) : (driveSelect l s).wire = s.wire := rfl
@[simp] theorem driveSelect_inputs (l : Bool) (s : State) : (driveSelect l s).inputs = s.inputs := rfl
@[simp] theorem driveSelect_inner (l : Bool) (s : State) : (driveSelect l s).inner = s.inner := rfl
@[simp] theorem driveSelect_cfg (l : Bool) (s : State) : (driveSelect l s).cfg = s.cfg := rfl

@[simp] theorem callStart_constructed (a : RegAddr) (s : State) : (callStart a s).constructed = s.constructed := rfl
@[simp] theorem callStart_state (a : RegAddr) (s : State) : (callStart a s).state = s.state := rfl
@[simp] theorem callStart_addr (a : RegAddr) (s : State) : (callStart a s).addr = s.addr := rfl
@[simp] theorem callStart_txCount (a : RegAddr) (s : State) : (callStart a s).txCount = s.txCount := rfl
@[simp] theorem callStart_rxCount (a : RegAddr) (s : State) : (callStart a s).rxCount = s.rxCount := rfl
@[simp] theorem callStart_bufs (a : RegAddr) (s : State) : (callStart a s).bufs = some (descriptorOf (answerOf s a).1) := rfl
@[simp] theorem callStart_selQ (a : RegAddr) (s : State) : (callStart a s).selQ = s.selQ := rfl
@[simp] theorem callStart_diag (a : RegAddr) (s : State) : (callStart a s).diag = s.diag := rfl
@[simp] theorem callStart_binding (a : RegAddr) (s : State) : (callStart a s).binding = s.binding := rfl
@[simp] theorem callStart_cbStart (a : RegAddr) (s : State) : (callStart a s).cbStart = s.cbStart := rfl
@[simp] theorem callStart_cbEnd (a : RegAddr) (s : State) : (callStart a s).cbEnd = s.cbEnd := rfl
@[simp] theorem callStart_rxq (a : RegAddr) (s : State) : (callStart a s).rxq = s.rxq := rfl
@[simp] theorem callStart_txq (a : RegAddr) (s : State) : (callStart a s).txq = s.txq := rfl
@[simp] theorem callStart_shift (a : RegAddr) (s : State) : (callStart a s).shift = s.shift := rfl
@[simp] theorem callStart_residue (a : RegAddr) (s : State) : (callStart a s).residue = s.residue := rfl
@[simp] theorem callStart_selN (a : RegAddr) (s : State) : (callStart a s).selN = s.selN := rfl
@[simp] theorem callStart_pendingSel (a : RegAddr) (s : State) : (callStart a s).pendingSel = s.pendingSel := rfl
@[simp] theorem callStart_irqEnabled (a : RegAddr) (s : State) : (callStart a s).irqEnabled = s.irqEnabled := rfl
@[simp] theorem callStart_frameIdx (a : RegAddr) (s : State) : (callStart a s).frameIdx = s.frameIdx := rfl
@[simp] theorem callStart_txMem (a : RegAddr) (s : State) : (callStart a s).txMem = Memory.load s.txMem (answerOf s a).1.txBase (answerOf s a).1.tx := rfl
@[simp] theorem callStart_rxMem (a : RegAddr) (s : State) : (callStart a s).rxMem = Memory.load s.rxMem (answerOf s a).1.rxBase (answerOf s a).1.rx := rfl
@[simp] theorem callStart_script (a : RegAddr) (s : State) : (callStart a s).script = (answerOf s a).2 := rfl
@[simp] theorem callStart_startCalls (a : RegAddr) (s : State) : (callStart a s).startCalls = s.startCalls + 1 := rfl
@[simp] theorem callStart_draws (a : RegAddr) (s : State) : (callStart a s).draws = s.draws := rfl
@[simp] theorem callStart_trace (a : RegAddr) (s : State) : (callStart a s).trace = s.trace ++ [.start s.cbStart a] := rfl
@[simp] theorem callStart_wire (a : RegAddr) (s : State) : (callStart a s).wire = s.wire := rfl
@[simp] theorem callStart_inputs (a : RegAddr) (s : State) : (callStart a s).inputs = s.inputs := rfl
@[simp] theorem callStart_inner (a : RegAddr) (s : State) : (callStart a s).inner = s.inner := rfl
@[simp] theorem callStart_cfg (a : RegAddr) (s : State) : (callStart a s).cfg = s.cfg := rfl

@[simp] theorem callEnd_constructed (a : RegAddr) (s : State) : (callEnd a s).constructed = s.constructed := rfl
@[simp] theorem callEnd_state (a : RegAddr) (s : State) : (callEnd a s).state = s.state := rfl
@[simp] theorem callEnd_addr (a : RegAddr) (s : State) : (callEnd a s).addr = s.addr := rfl
@[simp] theorem callEnd_txCount (a : RegAddr) (s : State) : (callEnd a s).txCount = s.txCount := rfl
@[simp] theorem callEnd_rxCount (a : RegAddr) (s : State) : (callEnd a s).rxCount = s.rxCount := rfl
@[simp] theorem callEnd_bufs (a : RegAddr) (s : State) : (callEnd a s).bufs = s.bufs := rfl
@[simp] theorem callEnd_selQ (a : RegAddr) (s : State) : (callEnd a s).selQ = s.selQ := rfl
@[simp] theorem callEnd_diag (a : RegAddr) (s : State) : (callEnd a s).diag = s.diag := rfl
@[simp] theorem callEnd_binding (a : RegAddr) (s : State) : (callEnd a s).binding = s.binding := rfl
@[simp] theorem callEnd_cbStart (a : RegAddr) (s : State) : (callEnd a s).cbStart = s.cbStart := rfl
@[simp] theorem callEnd_cbEnd (a : RegAddr) (s : State) : (callEnd a s).cbEnd = s.cbEnd := rfl
@[simp] theorem callEnd_rxq (a : RegAddr) (s : State) : (callEnd a s).rxq = s.rxq := rfl
@[simp] theorem callEnd_txq (a : RegAddr) (s : State) : (callEnd a s).txq = s.txq := rfl
@[simp] theorem callEnd_shift (a : RegAddr) (s : State) : (callEnd a s).shift = s.shift := rfl
@[simp] theorem callEnd_residue (a : RegAddr) (s : State) : (callEnd a s).residue = s.residue := rfl
@[simp] theorem callEnd_selN (a : RegAddr) (s : State) : (callEnd a s).selN = s.selN := rfl
@[simp] theorem callEnd_pendingSel (a : RegAddr) (s : State) : (callEnd a s).pendingSel = s.pendingSel := rfl
@[simp] theorem callEnd_irqEnabled (a : RegAddr) (s : State) : (callEnd a s).irqEnabled = s.irqEnabled := rfl
@[simp] theorem callEnd_frameIdx (a : RegAddr) (s : State) : (callEnd a s).frameIdx = s.frameIdx := rfl
@[simp] theorem callEnd_txMem (a : RegAddr) (s : State) : (callEnd a s).txMem = s.txMem := rfl
@[simp] theorem callEnd_rxMem (a : RegAddr) (s : State) : (callEnd a s).rxMem = s.rxMem := rfl
@[simp] theorem callEnd_script (a : RegAddr) (s : State) : (callEnd a s).script = s.script := rfl
@[simp] theorem callEnd_startCalls (a : RegAddr) (s : State) : (callEnd a s).startCalls = s.startCalls := rfl
@[simp] theorem callEnd_draws (a : RegAddr) (s : State) : (callEnd a s).draws = s.draws := rfl
@[simp] theorem callEnd_trace (a : RegAddr) (s : State) : (callEnd a s).trace = s.trace ++ [.finish s.cbEnd a (countOperand s.rxCount)] := rfl
@[simp] theorem callEnd_wire (a : RegAddr) (s : State) : (callEnd a s).wire = s.wire := rfl
@[simp] theorem callEnd_inputs (a : RegAddr) (s : State) : (callEnd a s).inputs = s.inputs := rfl
@[simp] theorem callEnd_inner (a : RegAddr) (s : State) : (callEnd a s).inner = s.inner := rfl
@[simp] theorem callEnd_cfg (a : RegAddr) (s : State) : (callEnd a s).cfg = s.cfg := rfl

@[simp] theorem writeRx_constructed (d : Buffers) (i : Nat) (v : Byte) (s : State) : (writeRx d i v s).constructed = s.constructed := rfl
@[simp] theorem writeRx_state (d : Buffers) (i : Nat) (v : Byte) (s : State) : (writeRx d i v s).state = s.state := rfl
@[simp] theorem writeRx_addr (d : Buffers) (i : Nat) (v : Byte) (s : State) : (writeRx d i v s).addr = s.addr := rfl
@[simp] theorem writeRx_txCount (d : Buffers) (i : Nat) (v : Byte) (s : State) : (writeRx d i v s).txCount = s.txCount := rfl
@[simp] theorem writeRx_rxCount (d : Buffers) (i : Nat) (v : Byte) (s : State) : (writeRx d i v s).rxCount = s.rxCount := rfl
@[simp] theorem writeRx_bufs (d : Buffers) (i : Nat) (v : Byte) (s : State) : (writeRx d i v s).bufs = s.bufs := rfl
@[simp] theorem writeRx_selQ (d : Buffers) (i : Nat) (v : Byte) (s : State) : (writeRx d i v s).selQ = s.selQ := rfl
@[simp] theorem writeRx_diag (d : Buffers) (i : Nat) (v : Byte) (s : State) : (writeRx d i v s).diag = s.diag := rfl
@[simp] theorem writeRx_binding (d : Buffers) (i : Nat) (v : Byte) (s : State) : (writeRx d i v s).binding = s.binding := rfl
@[simp] theorem writeRx_cbStart (d : Buffers) (i : Nat) (v : Byte) (s : State) : (writeRx d i v s).cbStart = s.cbStart := rfl
@[simp] theorem writeRx_cbEnd (d : Buffers) (i : Nat) (v : Byte) (s : State) : (writeRx d i v s).cbEnd = s.cbEnd := rfl
@[simp] theorem writeRx_rxq (d : Buffers) (i : Nat) (v : Byte) (s : State) : (writeRx d i v s).rxq = s.rxq := rfl
@[simp] theorem writeRx_txq (d : Buffers) (i : Nat) (v : Byte) (s : State) : (writeRx d i v s).txq = s.txq := rfl
@[simp] theorem writeRx_shift (d : Buffers) (i : Nat) (v : Byte) (s : State) : (writeRx d i v s).shift = s.shift := rfl
@[simp] theorem writeRx_residue (d : Buffers) (i : Nat) (v : Byte) (s : State) : (writeRx d i v s).residue = s.residue := rfl
@[simp] theorem writeRx_selN (d : Buffers) (i : Nat) (v : Byte) (s : State) : (writeRx d i v s).selN = s.selN := rfl
@[simp] theorem writeRx_pendingSel (d : Buffers) (i : Nat) (v : Byte) (s : State) : (writeRx d i v s).pendingSel = s.pendingSel := rfl
@[simp] theorem writeRx_irqEnabled (d : Buffers) (i : Nat) (v : Byte) (s : State) : (writeRx d i v s).irqEnabled = s.irqEnabled := rfl
@[simp] theorem writeRx_frameIdx (d : Buffers) (i : Nat) (v : Byte) (s : State) : (writeRx d i v s).frameIdx = s.frameIdx := rfl
@[simp] theorem writeRx_txMem (d : Buffers) (i : Nat) (v : Byte) (s : State) : (writeRx d i v s).txMem = s.txMem := rfl
@[simp] theorem writeRx_rxMem (d : Buffers) (i : Nat) (v : Byte) (s : State) : (writeRx d i v s).rxMem = Memory.write s.rxMem (d.rxBase + i) v := rfl
@[simp] theorem writeRx_script (d : Buffers) (i : Nat) (v : Byte) (s : State) : (writeRx d i v s).script = s.script := rfl
@[simp] theorem writeRx_startCalls (d : Buffers) (i : Nat) (v : Byte) (s : State) : (writeRx d i v s).startCalls = s.startCalls := rfl
@[simp] theorem writeRx_draws (d : Buffers) (i : Nat) (v : Byte) (s : State) : (writeRx d i v s).draws = s.draws := rfl
@[simp] theorem writeRx_trace (d : Buffers) (i : Nat) (v : Byte) (s : State) : (writeRx d i v s).trace = s.trace := rfl
@[simp] theorem writeRx_wire (d : Buffers) (i : Nat) (v : Byte) (s : State) : (writeRx d i v s).wire = s.wire := rfl
@[simp] theorem writeRx_inputs (d : Buffers) (i : Nat) (v : Byte) (s : State) : (writeRx d i v s).inputs = s.inputs := rfl
@[simp] theorem writeRx_inner (d : Buffers) (i : Nat) (v : Byte) (s : State) : (writeRx d i v s).inner = s.inner := rfl
@[simp] theorem writeRx_cfg (d : Buffers) (i : Nat) (v : Byte) (s : State) : (writeRx d i v s).cfg = s.cfg := rfl

end Sys2Proof.Machine
end

