-- ==== Sys2Proof/Laws/Ops.lean ====
section
/-! SUPPORT. What each shared operation can do, said once: a later proof cites these instead of unfolding
the operation. -/

namespace Sys2Proof.Machine

/-! ## Sequencing -/

@[simp] theorem andThen_next (s : State) (f : State → Host.Outcome State Fault Refusal) :
    andThen (.next s) f = f s := rfl

@[simp] theorem andThen_fault (r : Fault) (f : State → Host.Outcome State Fault Refusal) :
    andThen (.fault r) f = .fault r := rfl

@[simp] theorem andThen_refused (r : Refusal) (f : State → Host.Outcome State Fault Refusal) :
    andThen (.refused r) f = .refused r := rfl

theorem andThen_assoc (o : Host.Outcome State Fault Refusal)
    (f g : State → Host.Outcome State Fault Refusal) :
    andThen (andThen o f) g = andThen o (fun s => andThen (f s) g) := by
  cases o <;> rfl

@[simp] theorem andThen_next_right (o : Host.Outcome State Fault Refusal) :
    andThen o (fun s => .next s) = o := by
  cases o <;> rfl

/-- A sequence answers a next state exactly where both parts do. -/
theorem andThen_eq_next {o : Host.Outcome State Fault Refusal}
    {f : State → Host.Outcome State Fault Refusal} {t : State} :
    andThen o f = .next t ↔ ∃ u, o = .next u ∧ f u = .next t := by
  cases o <;> simp

/-- A sequence faults exactly where its first part does, or its second after it. -/
theorem andThen_eq_fault {o : Host.Outcome State Fault Refusal}
    {f : State → Host.Outcome State Fault Refusal} {r : Fault} :
    andThen o f = .fault r ↔ o = .fault r ∨ ∃ u, o = .next u ∧ f u = .fault r := by
  cases o <;> simp

theorem requireState_of {st : TransactionState} {s : State} (h : s.state = st)
    (body : Host.Outcome State Fault Refusal) : requireState st s body = body := if_pos h

theorem requireState_not {st : TransactionState} {s : State} (h : s.state ≠ st)
    (body : Host.Outcome State Fault Refusal) :
    requireState st s body = .refused (.notInState st) := if_neg h

theorem requireState_eq_next {st : TransactionState} {s t : State}
    {body : Host.Outcome State Fault Refusal} :
    requireState st s body = .next t ↔ s.state = st ∧ body = .next t := by
  unfold requireState
  split <;> simp [*]

theorem requireState_eq_fault {st : TransactionState} {s : State}
    {body : Host.Outcome State Fault Refusal} {r : Fault} :
    requireState st s body = .fault r ↔ s.state = st ∧ body = .fault r := by
  unfold requireState
  split <;> simp [*]

/-! ## The port -/

/-- With a free slot a push appends the byte (R129). -/
theorem txPush_of_free {s : State} (h : s.txq.length < s.cfg.txDepth) (b : Byte) :
    txPush b s = .next { s with txq := s.txq ++ [b] } := by
  simp [txPush, txFree, h]

theorem txPush_of_full {s : State} (h : s.cfg.txDepth ≤ s.txq.length) (b : Byte) :
    txPush b s = .fault .pushNoSlot := by
  simp [txPush, txFree, Nat.not_lt.2 h]

theorem txPush_eq_next {b : Byte} {s t : State} :
    txPush b s = .next t ↔ s.txq.length < s.cfg.txDepth ∧ t = { s with txq := s.txq ++ [b] } := by
  by_cases h : s.txq.length < s.cfg.txDepth
  · simp [txPush_of_free h, h, eq_comm]
  · simp [txPush_of_full (Nat.not_lt.1 h), h]

theorem txPush_eq_fault {b : Byte} {s : State} {r : Fault} :
    txPush b s = .fault r ↔ s.cfg.txDepth ≤ s.txq.length ∧ r = .pushNoSlot := by
  by_cases h : s.txq.length < s.cfg.txDepth
  · simp [txPush_of_free h, h]
  · simp [txPush_of_full (Nat.not_lt.1 h), Nat.not_lt.1 h, eq_comm]

theorem rxPop_nil {s : State} (h : s.rxq = []) : rxPop s = none := by simp [rxPop, h]

theorem rxPop_cons {s : State} {b : Byte} {q : List Byte} (h : s.rxq = b :: q) :
    rxPop s = some (b, { s with rxq := q }) := by simp [rxPop, h]

/-! ## The callbacks -/

/-- The first row for the callback and the address answers, and only it is used up. -/
theorem takeScripted_first {handle : Nat} {a : RegAddr} {pre : List ScriptRow} (w : StartAnswer)
    (post : List ScriptRow) (h : ∀ r ∈ pre, ¬(r.handle = handle ∧ r.address = a)) :
    takeScripted handle a (pre ++ ⟨handle, a, w⟩ :: post) = some (w, pre ++ post) := by
  induction pre with
  | nil => simp [takeScripted]
  | cons r rs ih =>
    rw [List.cons_append, takeScripted, if_neg (h r (by simp)), ih fun r' hr => h r' (by simp [hr])]
    rfl

theorem takeScripted_none {handle : Nat} {a : RegAddr} {script : List ScriptRow}
    (h : ∀ r ∈ script, ¬(r.handle = handle ∧ r.address = a)) : takeScripted handle a script = none := by
  induction script with
  | nil => rfl
  | cons r rs ih =>
    rw [takeScripted, if_neg (h r (by simp)), ih fun r' hr => h r' (by simp [hr])]
    rfl

/-- The answer depends only on the start callback, the script and the number of calls so far. -/
theorem answerOf_congr {s t : State} (h1 : t.cbStart = s.cbStart) (h2 : t.script = s.script)
    (h3 : t.startCalls = s.startCalls) (a : RegAddr) : answerOf t a = answerOf s a := by
  simp [answerOf, h1, h2, h3]

/-! ## The shifter -/

/-- The environment's part that a clock period may change; everything else stays. -/
def withShifter (s : State) (rxq txq : List Byte) (shift : Option PartialWord) (frameIdx draws : Nat)
    (trace : List Obs) (wire : List Lines) : State :=
  { s with
    rxq := rxq, txq := txq, shift := shift, frameIdx := frameIdx, draws := draws, trace := trace,
    wire := wire }

/-- The word in the shifter, and what taking it from the transmit path changes (R134, R135). -/
theorem wordInShifter_cases (s : State) :
    (∃ w, s.shift = some w ∧ wordInShifter s = (w, s)) ∨
    (s.shift = none ∧ ∃ b q, s.txq = b :: q ∧ wordInShifter s = (⟨[], b⟩, { s with txq := q })) ∨
    (s.shift = none ∧ s.txq = [] ∧
      wordInShifter s = (⟨[], Config.underrunByte s.draws⟩, { s with draws := s.draws + 1 })) := by
  unfold wordInShifter
  split
  · exact .inl ⟨_, ‹_›, rfl⟩
  · exact .inr (.inl ⟨‹_›, _, _, ‹_›, rfl⟩)
  · exact .inr (.inr ⟨‹_›, ‹_›, rfl⟩)

/-- Everything one clock period can do (R134, R139): the word goes on, or it ends and its byte joins
the receive queue. -/
theorem clockBit_eq_next {b : Bool} {s t u : State} {w : PartialWord} (hw : wordInShifter s = (w, u))
    (h : clockBit b s = .next t) :
    (w.sampled.length < 7 ∧
      t = { u with
        wire := s.wire ++ clockPeriod b (bitAt w.sending w.sampled.length)
        shift := some ⟨w.sampled ++ [b], w.sending⟩ }) ∨
    (7 ≤ w.sampled.length ∧ s.rxq.length < s.cfg.rxDepth ∧
      t = { u with
        wire := s.wire ++ clockPeriod b (bitAt w.sending w.sampled.length)
        rxq := s.rxq ++ [assemble (w.sampled ++ [b])]
        shift := none
        frameIdx := if s.selN then s.frameIdx else s.frameIdx + 1
        trace := s.trace ++ [.word (assemble (w.sampled ++ [b])) w.sending] }) := by
  have hs : u.wire = s.wire ∧ u.rxq = s.rxq ∧ u.cfg = s.cfg ∧ u.selN = s.selN ∧
      u.frameIdx = s.frameIdx ∧ u.trace = s.trace := by
    rcases wordInShifter_cases s with ⟨w', -, hw'⟩ | ⟨-, c, q, -, hw'⟩ | ⟨-, -, hw'⟩ <;>
      · rw [hw'] at hw
        cases hw
        exact ⟨rfl, rfl, rfl, rfl, rfl, rfl⟩
  obtain ⟨h1, h2, h3, h4, h5, h6⟩ := hs
  simp only [clockBit, hw, endWord, rxRoom, List.length_append, List.length_cons, List.length_nil, h1,
    h2, h3, h4, h5, h6] at h
  split at h
  · next hl =>
    cases h
    exact .inl ⟨by omega, by simp only [h2, h3, h4, h5, h6]⟩
  · next hl =>
    split at h
    · next hr =>
      cases h
      exact .inr ⟨by omega, by simpa using hr, by simp only [h3, h4]⟩
    · cases h

/-- A clock period changes nothing but the shifter, the queues and the observer's logs. -/
theorem clockBit_frame {b : Bool} {s t : State} (h : clockBit b s = .next t) :
    t = withShifter s t.rxq t.txq t.shift t.frameIdx t.draws t.trace t.wire := by
  rcases wordInShifter_cases s with ⟨w, -, hw⟩ | ⟨-, c, q, -, hw⟩ | ⟨-, -, hw⟩ <;>
    rcases clockBit_eq_next hw h with ⟨-, rfl⟩ | ⟨-, -, rfl⟩ <;> rfl

/-- The same of any number of periods, and so of a word. -/
theorem clockBits_frame {bits : List Bool} {s t : State} (h : clockBits bits s = .next t) :
    t = withShifter s t.rxq t.txq t.shift t.frameIdx t.draws t.trace t.wire := by
  induction bits generalizing s with
  | nil => cases h; rfl
  | cons b bits ih =>
    obtain ⟨u, hu, ht⟩ := andThen_eq_next.1 h
    have h1 := clockBit_frame hu
    have h2 := ih ht
    rw [h2, h1]
    rfl

/-- The bits of a word assemble to the word (R51, R139). -/
theorem assemble_bitsOf (b : Byte) : assemble (bitsOf b) = b := by
  revert b
  decide +kernel

/-- A word from between words (R134, R135, R136): the byte sent is the head of the transmit path or an
underrun draw; the master's byte joins the receive queue, or finds no room. -/
theorem clockWord_eq {s u : State} {w : PartialWord} (h : s.shift = none)
    (hw : wordInShifter s = (w, u)) (m : Byte) :
    clockWord m s =
      if s.rxq.length < s.cfg.rxDepth then
        .next { u with
          wire := s.wire ++ (List.range 8).flatMap (fun k => clockPeriod (bitAt m k) (bitAt w.sending k))
          rxq := s.rxq ++ [m]
          shift := none
          frameIdx := if s.selN then s.frameIdx else s.frameIdx + 1
          trace := s.trace ++ [.word m w.sending] }
      else .fault .rxOverrun := by
  have ha : assemble [bitAt m 0, bitAt m 1, bitAt m 2, bitAt m 3, bitAt m 4, bitAt m 5, bitAt m 6,
      bitAt m 7] = m := assemble_bitsOf m
  rcases wordInShifter_cases s with ⟨w', hw', -⟩ | ⟨-, c, q, hq, hw'⟩ | ⟨-, hq, hw'⟩
  · simp [h] at hw'
  all_goals
    rw [hw'] at hw
    cases hw
    by_cases hr : s.rxq.length < s.cfg.rxDepth <;> cases hn : s.selN <;>
      simp [clockWord, clockBits, bitsOf, clockBit, wordInShifter, h, hq, endWord, rxRoom, ha, hr, hn,
        show List.range 8 = [0, 1, 2, 3, 4, 5, 6, 7] from rfl]

end Sys2Proof.Machine
end

