-- ==== Sys2Proof/Laws/PerInstr.lean ====
section
/-! SUPPORT. Per instruction: the first byte that encode writes is a dispatch word of the instruction's
own row of spec/opcode_table.json, and the decoder has that row; a wire byte is one byte. -/

namespace Sys2Proof.Laws.RowMatch

/-- The match and mask spec/opcode_table.json gives an instruction; none for the WIRE format. -/
def tableRow : Instr → Option (BitVec 6 × BitVec 6)
  | .selAssert => some (0x00, 0x3F)
  | .selReassertW => some (0x01, 0x3F)
  | .selReassertT => some (0x02, 0x3F)
  | .selDeassertI => some (0x04, 0x3F)
  | .selDeassertW => some (0x05, 0x3F)
  | .selDeassertT => some (0x06, 0x3F)
  | .rxDiscard _ => some (0x08, 0x3F)
  | .rxAddr _ => some (0x09, 0x3F)
  | .rxData _ => some (0x0A, 0x3F)
  | .txPrime => some (0x0E, 0x3F)
  | .pump => some (0x10, 0x3C)
  | .diagTick => some (0x14, 0x3C)
  | .construct _ _ _ => some (0x18, 0x3C)
  | .cbStart => some (0x1D, 0x3F)
  | .cbEnd => some (0x22, 0x3F)
  | .pReinit => some (0x24, 0x3C)
  | .wireAddr _ => none
  | .wireData _ => none

/-- The encoding is of the instruction's row (R58, R53). -/
def Statement (i : Instr) : Prop :=
  match tableRow i with
  | some (value, mask) =>
    ∃ b operands r, encode i = b :: operands ∧ b.toNat < 64 ∧ b.setWidth 6 &&& mask = value ∧
      r ∈ rows ∧ r.value = value ∧ r.mask = mask
  | none => ∃ b, encode i = [b]

theorem selAssert : Statement .selAssert :=
  ⟨_, _, rows[0], rfl, by decide, by decide, List.getElem_mem _, rfl, rfl⟩

theorem selReassertW : Statement .selReassertW :=
  ⟨_, _, rows[1], rfl, by decide, by decide, List.getElem_mem _, rfl, rfl⟩

theorem selReassertT : Statement .selReassertT :=
  ⟨_, _, rows[2], rfl, by decide, by decide, List.getElem_mem _, rfl, rfl⟩

theorem selDeassertI : Statement .selDeassertI :=
  ⟨_, _, rows[3], rfl, by decide, by decide, List.getElem_mem _, rfl, rfl⟩

theorem selDeassertW : Statement .selDeassertW :=
  ⟨_, _, rows[4], rfl, by decide, by decide, List.getElem_mem _, rfl, rfl⟩

theorem selDeassertT : Statement .selDeassertT :=
  ⟨_, _, rows[5], rfl, by decide, by decide, List.getElem_mem _, rfl, rfl⟩

theorem rxDiscard (b : Byte) : Statement (.rxDiscard b) :=
  ⟨_, _, rows[6], rfl, by decide, by decide, List.getElem_mem _, rfl, rfl⟩

theorem rxAddr (b : Byte) : Statement (.rxAddr b) :=
  ⟨_, _, rows[7], rfl, by decide, by decide, List.getElem_mem _, rfl, rfl⟩

theorem rxData (b : Byte) : Statement (.rxData b) :=
  ⟨_, _, rows[8], rfl, by decide, by decide, List.getElem_mem _, rfl, rfl⟩

theorem txPrime : Statement .txPrime :=
  ⟨_, _, rows[9], rfl, by decide, by decide, List.getElem_mem _, rfl, rfl⟩

theorem pump : Statement .pump :=
  ⟨_, _, rows[10], rfl, by decide, by decide, List.getElem_mem _, rfl, rfl⟩

theorem diagTick : Statement .diagTick :=
  ⟨_, _, rows[11], rfl, by decide, by decide, List.getElem_mem _, rfl, rfl⟩

theorem construct (binding : Binding) (start finish : Nat) : Statement (.construct binding start finish) :=
  ⟨_, _, rows[12], rfl, by decide, by decide, List.getElem_mem _, rfl, rfl⟩

theorem cbStart : Statement .cbStart :=
  ⟨_, _, rows[13], rfl, by decide, by decide, List.getElem_mem _, rfl, rfl⟩

theorem cbEnd : Statement .cbEnd :=
  ⟨_, _, rows[14], rfl, by decide, by decide, List.getElem_mem _, rfl, rfl⟩

theorem pReinit : Statement .pReinit :=
  ⟨_, _, rows[15], rfl, by decide, by decide, List.getElem_mem _, rfl, rfl⟩

theorem wireAddr (a : Byte) : Statement (.wireAddr a) :=
  ⟨_, rfl⟩

theorem wireData (d : Byte) : Statement (.wireData d) :=
  ⟨_, rfl⟩

end Sys2Proof.Laws.RowMatch
end

