-- ==== Sys2Proof/Laws/Pump.lean ====
section
/-! SUPPORT. What priming, a received byte and the pump loop can do, said once. -/

namespace Sys2Proof.Machine

/-! ## The transmit stream -/

@[simp] theorem stream_zero (d : Buffers) (mem : Memory) (first : Nat) : stream d mem first 0 = [] := rfl

@[simp] theorem stream_length (d : Buffers) (mem : Memory) (first n : Nat) :
    (stream d mem first n).length = n := by simp [stream]

/-- The stream goes on where it stopped. -/
theorem stream_add (d : Buffers) (mem : Memory) (first n m : Nat) :
    stream d mem first (n + m) = stream d mem first n ++ stream d mem (first + n) m := by
  simp [stream, List.range_add, Nat.add_assoc]

theorem stream_succ (d : Buffers) (mem : Memory) (first n : Nat) :
    stream d mem first (n + 1) = streamByte d mem first :: stream d mem (first + 1) n := by
  rw [Nat.add_comm, stream_add]
  simp [stream]

/-! ## Priming -/

/-- The byte TX_PRIME pushes is the stream's (R91, R95). -/
theorem nextTxByte_eq (d : Buffers) (s : State) :
    nextTxByte d s = streamByte d s.txMem s.txCount := by
  simp [nextTxByte, txRemains, streamByte, readTx, pad]

/-- `n` rounds of PRIME where `n` slots are free push the next `n` bytes of the stream (R92, R95). -/
theorem primeLoop_eq {s : State} {d : Buffers} (hs : s.state = .transferring) (hd : s.bufs = some d)
    (n : Nat) (hn : s.txq.length + n ≤ s.cfg.txDepth) :
    primeLoop n s = .next { s with
      txq := s.txq ++ stream d s.txMem s.txCount n
      txCount := s.txCount + n } := by
  induction n generalizing s with
  | zero => simp [primeLoop]
  | succ n ih =>
    have hf : s.txq.length < s.cfg.txDepth := by omega
    simp only [primeLoop, txFree, hf, decide_true, if_true, execTxPrime, requireState_of hs, hd,
      txPush_of_free hf, andThen_next]
    refine (ih (by exact hs) rfl (by simp; omega)).trans ?_
    simp [nextTxByte_eq, stream_succ, Nat.add_assoc, Nat.add_comm 1]

/-- PRIME in `Transferring` fills every free slot from the stream (R92). -/
theorem prime_eq {s : State} {d : Buffers} (hs : s.state = .transferring) (hd : s.bufs = some d) :
    prime s = .next { s with
      txq := s.txq ++ stream d s.txMem s.txCount (s.cfg.txDepth - s.txq.length)
      txCount := s.txCount + (s.cfg.txDepth - s.txq.length) } := by
  by_cases h : s.txq.length ≤ s.cfg.txDepth
  · exact primeLoop_eq hs hd _ (by simp [freeSlots]; omega)
  · simp [prime, freeSlots, Nat.sub_eq_zero_of_le (Nat.le_of_not_le h), primeLoop]

/-! ## One received byte -/

/-- The part of a state a received byte may change: the phase, the transaction's fields, the counters,
the transmit path, the memories and what the application did. The receive queue is not in it. -/
def withTransaction (s : State) (state : TransactionState) (addr : Option RegAddr) (bufs : Option Buffers)
    (txCount rxCount : Nat) (txq : List Byte) (txMem rxMem : Memory) (script : List ScriptRow)
    (startCalls : Nat) (trace : List Obs) : State :=
  { s with
    state := state, addr := addr, bufs := bufs, txCount := txCount, rxCount := rxCount, txq := txq,
    txMem := txMem, rxMem := rxMem, script := script, startCalls := startCalls, trace := trace }

/-- Everything a received byte can do (R88, R89, R90): nothing in `Inactive`; the address phase; a data
byte stored, counted and followed by priming; and a stop only where a transaction under way has no
buffers, which R24 rules out. -/
theorem rxByte_cases (b : Byte) (s : State) :
    (s.state = .inactive ∧ rxByte b s = .next s) ∨
    (s.state = .waitingAddress ∧
      ∃ u, u = callStart (addressOperand b) { s with addr := some (addressOperand b) } ∧
        rxByte b s = .next { u with
          state := .transferring
          txq := u.txq ++ stream (descriptorOf (answerOf s (addressOperand b)).1) u.txMem u.txCount
            (u.cfg.txDepth - u.txq.length)
          txCount := u.txCount + (u.cfg.txDepth - u.txq.length) }) ∨
    (s.state = .transferring ∧ ∃ d, s.bufs = some d ∧ rxByte b s = .next { s with
      rxMem := if s.rxCount < d.rxLen then Memory.write s.rxMem (d.rxBase + s.rxCount) b else s.rxMem
      rxCount := s.rxCount + 1
      txq := s.txq ++ stream d s.txMem s.txCount (s.cfg.txDepth - s.txq.length)
      txCount := s.txCount + (s.cfg.txDepth - s.txq.length) }) ∨
    (s.state = .transferring ∧ s.bufs = none ∧ rxByte b s = .fault .noBuffers) := by
  cases hs : s.state with
  | inactive => simp [rxByte, hs, execRxDiscard, requireState]
  | waitingAddress =>
    refine .inr (.inl ⟨rfl, _, rfl, ?_⟩)
    simp only [rxByte, hs, execRxAddr, execCbStart, requireState, if_true, andThen_next]
    rw [prime_eq (d := descriptorOf (answerOf s (addressOperand b)).1) rfl
      (by simp only [callStart_bufs]; rw [answerOf_congr] <;> rfl)]
  | transferring =>
    cases hd : s.bufs with
    | none => simp [rxByte, hs, hd, execRxData, requireState]
    | some d =>
      refine .inr (.inr (.inl ⟨rfl, d, rfl, ?_⟩))
      simp only [rxByte, hs, hd, execRxData, requireState, if_true]
      rw [prime_eq (d := d) (by simp only [storeRx]; split <;> exact hs)
        (by simp only [storeRx]; split <;> exact hd)]
      by_cases h : s.rxCount < d.rxLen <;> simp [storeRx, rxFits, h, hs, hd]

/-- A received byte changes nothing outside the transaction's part. -/
theorem rxByte_frame {b : Byte} {s t : State} (h : rxByte b s = .next t) :
    t = withTransaction s t.state t.addr t.bufs t.txCount t.rxCount t.txq t.txMem t.rxMem t.script
      t.startCalls t.trace := by
  rcases rxByte_cases b s with ⟨-, he⟩ | ⟨-, u, rfl, he⟩ | ⟨-, d, -, he⟩ | ⟨-, -, he⟩ <;>
    rw [he] at h <;> cases h <;> rfl

/-! ## The pump loop -/

/-- One round of the pump loop (R86). -/
theorem pumpLoop_cons {s : State} {b : Byte} {q : List Byte} (h : s.rxq = b :: q) (n : Nat) :
    pumpLoop (n + 1) s = andThen (rxByte b { s with rxq := q }) (pumpLoop n) := by
  simp [pumpLoop, rxPop_cons h]

theorem pumpLoop_nil {s : State} (h : s.rxq = []) (n : Nat) : pumpLoop n s = .next s := by
  cases n <;> simp [pumpLoop, rxPop_nil h]

/-- PUMP with a byte waiting: it is taken, and PUMP goes on with the rest (R86). -/
theorem execPump_cons {s : State} {b : Byte} {q : List Byte} (h : s.rxq = b :: q) :
    execPump s = andThen (rxByte b { s with rxq := q }) execPump := by
  rw [execPump, h, List.length_cons, pumpLoop_cons h]
  cases hr : rxByte b { s with rxq := q } with
  | next t =>
    have : t.rxq = q := by rw [rxByte_frame hr]; rfl
    simp [execPump, this]
  | fault r => rfl
  | refused r => rfl

theorem execPump_nil {s : State} (h : s.rxq = []) : execPump s = .next s := pumpLoop_nil h _

/-- PUMP by induction on the queue: a property that holds where nothing waits, and of a state whose
oldest byte leads to a state of which it holds, holds of every state PUMP completes from. -/
theorem execPump_induction {motive : State → State → Prop}
    (done : ∀ s, s.rxq = [] → motive s s)
    (byte : ∀ s b q u t, s.rxq = b :: q → rxByte b { s with rxq := q } = .next u →
      execPump u = .next t → u.rxq = q → motive u t → motive s t)
    {s t : State} (h : execPump s = .next t) : motive s t := by
  generalize hq : s.rxq = q
  induction q generalizing s with
  | nil =>
    rw [execPump_nil hq] at h
    cases h
    exact done _ hq
  | cons b q ih =>
    rw [execPump_cons hq] at h
    obtain ⟨u, hu, ht⟩ := andThen_eq_next.1 h
    have hr : u.rxq = q := by rw [rxByte_frame hu]; rfl
    exact byte _ b q u t hq hu ht hr (ih ht hr)

end Sys2Proof.Machine
end

