-- ==== Sys2Proof/Laws/Schedule.lean ====
section
/-! SUPPORT. What a step takes, said once: the internal step that was placed, the next input, or nothing. -/

namespace Sys2Proof.Machine

theorem step_inner {s : State} {code : BitVec 4} {operands : List Byte}
    (h : s.inner = some (code, operands)) : step s = dispatch code operands { s with inner := none } := by
  simp [step, nextInput, h]

theorem step_input {s : State} {i : Input} {rest : List Input} (h : s.inner = none)
    (hi : s.inputs = i :: rest) : step s = runInput i { s with inputs := rest } := by
  simp [step, nextInput, h, hi]

theorem step_idle {s : State} (h : s.inner = none) (hi : s.inputs = []) : step s = .next s := by
  simp [step, nextInput, h, hi]

/-- An external event is dispatched where an engine exists, Construct anywhere; an internal one is refused
by name (R56, R59). -/
theorem presentEvent_external {code : BitVec 4} {s : State} (h : internalEvent code = false)
    (hc : s.constructed = true ∨ code = Event.construct.code) (operands : List Byte) :
    presentEvent code operands s = dispatch code operands s := by
  simp [presentEvent, h, hc]

/-- Where no engine exists any other external event is refused (R19). -/
theorem presentEvent_noEngine {code : BitVec 4} {s : State} (h : internalEvent code = false)
    (hc : s.constructed = false) (hn : code ≠ Event.construct.code) (operands : List Byte) :
    presentEvent code operands s = .refused .noEngine := by
  simp [presentEvent, h, hc, hn]

theorem presentEvent_internal {code : BitVec 4} (h : internalEvent code = true) (operands : List Byte)
    (s : State) : presentEvent code operands s = .refused (.internalEvent code) := by
  simp [presentEvent, h]

end Sys2Proof.Machine
end

