-- ==== Sys2Proof/Tests/Slice0.lean ====
section
/-! SUPPORT. Tests of the model against the vectors of spec/95_test_vectors.md and the worked examples of
the rules, one step each; and for every obligation with hypotheses a state that meets them. -/

namespace Sys2Proof.Tests

open Sys2Proof.Machine

/-! ## Helpers -/

/-- A next state that passes a check. -/
def nextSat (o : Host.Outcome State Fault Refusal) (p : State → Bool) : Bool :=
  match o with
  | .next s => p s
  | .fault _ => false
  | .refused _ => false

def faultIs (o : Host.Outcome State Fault Refusal) (f : Fault) : Bool :=
  match o with
  | .next _ => false
  | .fault r => decide (r = f)
  | .refused _ => false

/-- (`state`, `addr`, `txCount`, `rxCount`), as the vectors write it. -/
def view (s : State) : TransactionState × Option RegAddr × Nat × Nat :=
  (s.state, s.addr, s.txCount, s.rxCount)

/-- `Inactive` with the given counters. -/
def idle (tx rx : Nat) : State := { State.reset with txCount := tx, rxCount := rx }

/-- `Start(0x0010)` of section 2.3: three bytes to send, capacity 5 holding u0 to u4. -/
def answer10 : StartAnswer := ⟨0x100, [0xAA, 0xBB, 0xCC], 0x200, [0xF0, 0xF1, 0xF2, 0xF3, 0xF4]⟩

/-- `WaitingAddress`, both depths `d`, that answer to come. -/
def armed (d : Nat) (txq rxq : List Byte) : State :=
  { State.reset with
    state := .waitingAddress
    diag := false
    selN := false
    selQ := false
    txq := txq
    rxq := rxq
    script := [⟨0, 0x10, answer10⟩]
    cfg := ⟨d, d, [⟨0, 0, 0, 0, 0⟩]⟩ }

/-- `Transferring` at address 0x10 with those buffers attached, both depths `d`. -/
def busy (d tx rx : Nat) (txq rxq : List Byte) : State :=
  { State.reset with
    state := .transferring
    addr := some 0x10
    bufs := some ⟨0x100, 3, 0x200, 5⟩
    txCount := tx
    rxCount := rx
    diag := false
    selN := false
    selQ := false
    frameIdx := 1
    txq := txq
    rxq := rxq
    txMem := [(0x100, 0xAA), (0x101, 0xBB), (0x102, 0xCC)]
    rxMem := [(0x200, 0xF0), (0x201, 0xF1), (0x202, 0xF2), (0x203, 0xF3), (0x204, 0xF4)]
    cfg := ⟨d, d, [⟨0, 0, 0, 0, 0⟩]⟩ }

/-- The receive buffer of `busy`. -/
def rxBytes (s : State) : List Byte := (List.range 5).map (fun i => Memory.read s.rxMem (0x200 + i))

/-- No engine exists yet; the master drives the line to `level`. -/
def unbuilt (level : Bool) : State :=
  { State.reset with
    constructed := false, irqEnabled := false, diag := false, selN := level, selQ := level }

/-! ## Well-formedness: one ill-formed term per check -/

theorem test_wf_selN : (Instr.construct ⟨256, 0, 0, 0, 0⟩ 0 0).wf = false := by decide
theorem test_wf_sclk : (Instr.construct ⟨0, 256, 0, 0, 0⟩ 0 0).wf = false := by decide
theorem test_wf_sdi : (Instr.construct ⟨0, 0, 256, 0, 0⟩ 0 0).wf = false := by decide
theorem test_wf_sdo : (Instr.construct ⟨0, 0, 0, 256, 0⟩ 0 0).wf = false := by decide
theorem test_wf_diag : (Instr.construct ⟨0, 0, 0, 0, 256⟩ 0 0).wf = false := by decide
theorem test_wf_start : (Instr.construct ⟨0, 0, 0, 0, 0⟩ 256 0).wf = false := by decide
theorem test_wf_end : (Instr.construct ⟨0, 0, 0, 0, 0⟩ 0 256).wf = false := by decide
theorem test_wf_boundary : (Instr.construct ⟨255, 255, 255, 255, 255⟩ 255 255).wf = true := by decide

/-! ## Decoding: words written out from R58 (event bits, then state bits) and R53 -/

/-- 40_select_edge.md: event 0000 or 0001, states 00, 01, 10; VE7. -/
theorem test_decode_select :
    decode .event [0b00000000#8] = .ok (.selAssert, []) ∧
    decode .event [0b00000001#8] = .ok (.selReassertW, []) ∧
    decode .event [0b00000010#8] = .ok (.selReassertT, []) ∧
    decode .event [0b00000100#8] = .ok (.selDeassertI, []) ∧
    decode .event [0b00000101#8] = .ok (.selDeassertW, []) ∧
    decode .event [0b00000110#8] = .ok (.selDeassertT, []) := ⟨rfl, rfl, rfl, rfl, rfl, rfl⟩

/-- 41_byte_pump.md: event 0010, 0011 and 0100; VE8, VE9. -/
theorem test_decode_pump :
    decode .event [0b00001000#8, 0x7F#8] = .ok (.rxDiscard 0x7F#8, []) ∧
    decode .event [0b00001001#8, 0x7F#8] = .ok (.rxAddr 0x7F#8, []) ∧
    decode .event [0b00001010#8, 0x7F#8, 0x01#8] = .ok (.rxData 0x7F#8, [0x01#8]) ∧
    decode .event [0b00001110#8] = .ok (.txPrime, []) ∧
    decode .event [0b00010000#8] = .ok (.pump, []) ∧
    decode .event [0b00010011#8] = .ok (.pump, []) := ⟨rfl, rfl, rfl, rfl, rfl, rfl⟩

/-- 42_host_handshake.md: event 0101, 0110, 0111 and 1000. -/
theorem test_decode_handshake :
    decode .event [0b00010101#8] = .ok (.diagTick, []) ∧
    decode .event [0b00011000#8, 1#8, 2#8, 3#8, 4#8, 5#8, 6#8, 7#8] =
      .ok (.construct ⟨1, 2, 3, 4, 5⟩ 6 7, []) ∧
    decode .event [0b00011101#8] = .ok (.cbStart, []) ∧
    decode .event [0b00100010#8] = .ok (.cbEnd, []) := ⟨rfl, rfl, rfl, rfl⟩

/-- 43_peripheral_port.md: event 1001; and the two wire byte kinds (R53). -/
theorem test_decode_port :
    decode .event [0b00100101#8] = .ok (.pReinit, []) ∧
    decode (.wire 0) [0b10000001#8] = .ok (.wireAddr 0x81#8, []) ∧
    decode (.wire 1) [0b10000001#8] = .ok (.wireData 0x81#8, []) ∧
    decode (.wire 200) [0b00000000#8] = .ok (.wireData 0x00#8, []) := ⟨rfl, rfl, rfl, rfl⟩

/-- VE10, VE11, VE12, and bytes that are no dispatch word or lack their operand: refused by name. -/
theorem test_decode_refusals :
    decode .event [0b00001100#8] = .error (.noSuchOperation 0x3#4 0b00#2) ∧
    decode .event [0b00101000#8] = .error (.reservedEvent 0xA#4) ∧
    decode .event [0b00111111#8] = .error (.reservedEvent 0xF#4) ∧
    decode .event [0b00000011#8] = .error (.reservedState 0x0#4) ∧
    decode .event [0b01000000#8] = .error (.notADispatchWord 0x40#8) ∧
    decode .event [0b00001001#8] = .error .missingOperand ∧
    decode .event [] = .error .noBytes := ⟨rfl, rfl, rfl, rfl, rfl, rfl, rfl⟩

/-- VE1, VE2, VE3, VE4, VE5, VE6. -/
theorem test_word_bits :
    bitsOf 0x10 = [false, false, false, true, false, false, false, false] ∧
    bitsOf 0xAA = [true, false, true, false, true, false, true, false] ∧
    bitsOf 0x01 = [false, false, false, false, false, false, false, true] ∧
    assemble [true, false, false, false, false, false, false, false] = 0x80 ∧
    addressOperand 0xFF = 0x00FF ∧ addressOperand 0x00 = 0x0000 := by decide

/-- The two table words of R58 with operand bytes above them, and one of the WIRE format (log 14). -/
theorem test_table_words :
    decodeTableWord 8 0x06 = some .selDeassertT ∧
    decodeTableWord 16 0x1009 = some (.rxAddr 0x10) ∧
    decodeTableWord 8 0x09 = some (.rxAddr 0x00) ∧
    decodeTableWord 8 0x18 = some (.construct ⟨0, 0, 0, 0, 0⟩ 0 0) ∧
    decodeTableWord 8 0x0C = none ∧
    decodeTableWord 8 0xAA = some (.wireAddr 0xAA) := by decide

/-! ## Reset and memory -/

theorem test_reset_memory : State.reset.txMem.wf ∧ State.reset.rxMem.wf := by decide

/-- Writing what an unlisted address reads as removes the entry, so equal memories are equal data. -/
theorem test_memory_canonical :
    Memory.write (Memory.write [] 5 0x77) 5 0x00 = [] ∧
    Memory.load [] 7 [0x01, 0x00, 0x03] = [(7, 0x01), (9, 0x03)] := by decide

/-! ## Select family (section 2.2) -/

/-- VA1. -/
theorem test_selAssert_va1 :
    nextSat (exec .selAssert (idle 7 9)) (fun t =>
      view t = (.waitingAddress, none, 0, 0) ∧ t.txq = [0x00] ∧ t.diag = false ∧ t.trace = []) := by
  decide

/-- VA9: no second placeholder. -/
theorem test_selReassertW_va9 :
    nextSat (exec .selReassertW (armed 2 [0x00] [])) (fun t =>
      view t = (.waitingAddress, none, 0, 0) ∧ t.txq = [0x00]) := by decide

/-- VA8 and the example of R73. -/
theorem test_selReassertT_va8 :
    nextSat (exec .selReassertT (busy 2 3 2 [0xCC] [])) (fun t =>
      view t = (.transferring, some 0x10, 3, 2) ∧ t.txq = [0xCC] ∧ t.diag = false ∧ t.trace = []) := by
  decide

/-- VA10. -/
theorem test_selDeassertI_va10 :
    nextSat (exec .selDeassertI { idle 0 0 with rxq := [0x33] }) (fun t =>
      view t = (.inactive, none, 0, 0) ∧ t.rxq = [] ∧ t.trace = []) := by decide

/-- VA11: address clocked, not pumped. -/
theorem test_selDeassertW_va11 :
    nextSat (exec .selDeassertW (armed 1 [] [0x10])) (fun t =>
      view t = (.inactive, none, 0, 0) ∧ t.rxq = [] ∧ t.txq = [] ∧ t.trace = []) := by decide

/-- VA4. -/
theorem test_selDeassertT_va4 :
    nextSat (exec .selDeassertT (busy 1 5 4 [0x00] [])) (fun t =>
      view t = (.inactive, none, 5, 4) ∧ t.txq = [] ∧ t.trace = [.finish 0 0x10 4]) := by decide

/-- VA7: an unpumped byte is lost and not counted. -/
theorem test_selDeassertT_va7 :
    nextSat (exec .selDeassertT (busy 1 2 1 [0xBB] [0x02])) (fun t =>
      view t = (.inactive, none, 2, 1) ∧ t.rxq = [] ∧ t.trace = [.finish 0 0x10 1]) := by decide

/-! ## Pump family (section 2.3) -/

/-- VB1's byte. -/
theorem test_rxDiscard_vb1 :
    nextSat (exec (.rxDiscard 0xFF) (idle 5 3)) (fun t =>
      view t = (.inactive, none, 5, 3) ∧ t.trace = [] ∧ t.txq = []) := by decide

/-- The example of R89. -/
theorem test_rxAddr_example :
    nextSat (exec (.rxAddr 0x10) (armed 1 [] [])) (fun t =>
      view t = (.transferring, some 0x10, 1, 0) ∧ t.txq = [0xAA] ∧ t.trace = [.start 0 0x10]) := by decide

/-- VB7's depth. -/
theorem test_rxAddr_vb7 :
    nextSat (exec (.rxAddr 0x10) (armed 4 [] [])) (fun t =>
      view t = (.transferring, some 0x10, 4, 0) ∧ t.txq = [0xAA, 0xBB, 0xCC, 0x00]) := by decide

/-- VB10: the last element. -/
theorem test_rxData_vb10 :
    nextSat (exec (.rxData 0x05) (busy 1 5 4 [] [])) (fun t =>
      view t = (.transferring, some 0x10, 6, 5) ∧ t.txq = [0x00] ∧
      rxBytes t = [0xF0, 0xF1, 0xF2, 0xF3, 0x05]) := by decide

/-- VB11: the first overflow byte. -/
theorem test_rxData_vb11 :
    nextSat (exec (.rxData 0x06) (busy 1 6 5 [] [])) (fun t =>
      view t = (.transferring, some 0x10, 7, 6) ∧ t.txq = [0x00] ∧
      rxBytes t = [0xF0, 0xF1, 0xF2, 0xF3, 0xF4]) := by decide

/-- VB15. -/
theorem test_txPrime_vb15 :
    nextSat (exec .txPrime (busy 1 2 0 [] [])) (fun t => t.txq = [0xCC] ∧ t.txCount = 3) := by decide

/-- VB16. -/
theorem test_txPrime_vb16 :
    nextSat (exec .txPrime (busy 1 3 0 [] [])) (fun t => t.txq = [0x00] ∧ t.txCount = 4) := by decide

/-- VB13: an address and a data byte in one PUMP. -/
theorem test_pump_vb13 :
    nextSat (exec .pump (armed 2 [] [0x10, 0x01])) (fun t =>
      view t = (.transferring, some 0x10, 2, 1) ∧ t.txq = [0xAA, 0xBB] ∧ t.rxq = [] ∧
      rxBytes t = [0x01, 0xF1, 0xF2, 0xF3, 0xF4]) := by decide

/-- VB8: no slot free, nothing primed. -/
theorem test_pump_vb8 :
    nextSat (exec .pump (armed 1 [0x00] [0x10])) (fun t =>
      view t = (.transferring, some 0x10, 0, 0) ∧ t.txq = [0x00]) := by decide

/-! ## Host handshake (section 2.4) -/

/-- VH4. -/
theorem test_diagTick_vh4 :
    nextSat (exec .diagTick (busy 1 2 1 [] [])) (fun t =>
      t.diag = true ∧ view t = (.transferring, some 0x10, 2, 1)) := by decide

/-- VH3: constructed with the line low. -/
theorem test_construct_vh3 :
    nextSat (exec (.construct ⟨0, 0, 0, 0, 0⟩ 3 4) { unbuilt false with selQ := true, rxq := [0x02] })
      (fun t => t.constructed = true ∧ view t = (.inactive, none, 0, 0) ∧ t.selQ = false ∧ t.diag = true ∧ t.pendingSel = [] ∧
        t.rxq = [] ∧ t.txq = [] ∧ t.irqEnabled = true ∧ t.cbStart = 3 ∧ t.cbEnd = 4) := by decide

/-- VH2. -/
theorem test_construct_vh2 :
    faultIs (exec (.construct ⟨9, 9, 9, 9, 9⟩ 3 4) (unbuilt true)) .configurationError := by decide

/-- R170: the reset state is what construction with its arguments leaves (VH1). -/
theorem test_construct_vh1 : exec (.construct ⟨0, 0, 0, 0, 0⟩ 0 0) (unbuilt true) = .next State.reset := rfl

/-- R179: an engine is not built again, in a transaction or between two. -/
theorem test_construct_once :
    step { busy 1 2 1 [0xBB] [] with inputs := [.event 0x6 [0, 0, 0, 0, 0, 1, 2]] } =
      .refused .alreadyConstructed ∧
    exec (.construct ⟨0, 0, 0, 0, 0⟩ 0 0) State.reset = .refused .alreadyConstructed := ⟨rfl, rfl⟩

/-- R19, R23: before construction an edge posts no event, no handler runs and a tick finds no engine. -/
theorem test_before_construction :
    nextSat (step { unbuilt true with inputs := [.sel false] }) (fun t => t.pendingSel = [] ∧ t.selN = false) ∧
    nextSat (step { unbuilt true with inputs := [.service .byteReady] }) (fun t => t.diag = false) ∧
    step { unbuilt true with inputs := [.event 0x5 []] } = .refused .noEngine := ⟨by decide, by decide, rfl⟩

/-- The example of R105; the state is still `WaitingAddress`. -/
theorem test_cbStart_example :
    nextSat (exec .cbStart { armed 1 [] [] with addr := some 0x10 }) (fun t =>
      t.bufs = some ⟨0x100, 3, 0x200, 5⟩ ∧ t.state = .waitingAddress ∧ t.trace = [.start 0 0x10] ∧
      Memory.read t.txMem 0x102 = 0xCC) := by decide

/-- VE13: a count above the capacity is reported as it is. -/
theorem test_cbEnd_ve13 :
    nextSat (exec .cbEnd (busy 1 7 6 [0x00] [])) (fun t =>
      t.trace = [.finish 0 0x10 6] ∧ t.state = .transferring) := by decide

/-! ## Port and wire (section 2.5) -/

/-- VL5. -/
theorem test_pReinit_vl5 :
    nextSat (exec .pReinit (busy 2 4 3 [0xCC, 0x00] [0x77])) (fun t =>
      t.txq = [] ∧ t.rxq = [] ∧ rxAvail t = false ∧ txFree t = true ∧ t.txCount = 4) := by decide

/-- VL1; the first clock period has bit 7 of both bytes. -/
theorem test_wireAddr_vl1 :
    nextSat (exec (.wireAddr 0x90) (armed 1 [0x00] [])) (fun t =>
      t.txq = [] ∧ t.rxq = [0x90] ∧ t.trace = [.word 0x90 0x00] ∧ t.frameIdx = 1 ∧
      t.wire.take 2 = [⟨false, true, false⟩, ⟨true, true, false⟩]) := by decide

/-- VL4's first word. -/
theorem test_wireData_vl4 :
    nextSat (exec (.wireData 0x01) (busy 2 2 0 [0xAA, 0xBB] [])) (fun t =>
      t.txq = [0xBB] ∧ t.rxq = [0x01] ∧ t.trace = [.word 0x01 0xAA] ∧ t.frameIdx = 2) := by decide

/-- VL3. -/
theorem test_wireData_vl3 :
    faultIs (exec (.wireData 0x02) (busy 1 1 0 [0xAA] [0x01])) .rxOverrun := by decide

/-! ## One step -/

/-- A table word placed in reset is what the next step runs (log 14). -/
theorem test_place_words :
    nextSat (step (State.reset.withFetchWord 8 0x00)) (fun t => t.state = .waitingAddress) ∧
    nextSat (step (State.reset.withFetchWord 8 0x0A)) (fun t => t.rxCount = 1) ∧
    nextSat (step (State.reset.withFetchWord 8 0x22)) (fun t => t.trace = [.finish 0 0 0]) ∧
    nextSat (step (State.reset.withFetchWord 8 0x1D)) (fun t => t.startCalls = 1) ∧
    nextSat (step (State.reset.withFetchWord 8 0x18)) (fun t => t.constructed = true ∧ t.state = .inactive) ∧
    nextSat (step (State.reset.withFetchWord 8 0xAA)) (fun t => t.rxq = [0xAA]) := by decide

/-- R70: the falling edge posts one event, and the next sample of the same level none. -/
theorem test_sample_posts_once :
    nextSat (step { State.reset with inputs := [.sel false] }) (fun t =>
      t.pendingSel = [.fall] ∧ t.selQ = false) ∧
    nextSat (step { State.reset with selN := false, selQ := false, inputs := [.sel false] }) (fun t =>
      t.pendingSel = []) := by decide

/-- U7, R140, VL7: a word while deselected is admitted and waits in the queue. -/
theorem test_word_while_deselected :
    nextSat (step { State.reset with inputs := [.clk 0x99] }) (fun t => t.rxq = [0x99] ∧ t.frameIdx = 0) := by
  decide

/-- R56, R59: an internal event is no input: RX_BYTE and CALL_END on the free port are refused by name. -/
theorem test_internal_event_refused :
    step { busy 1 1 0 [] [] with inputs := [.event 0x2 [0x01]] } = .refused (.internalEvent 0x2) ∧
    step { busy 1 1 0 [] [] with inputs := [.event 0x8 []] } = .refused (.internalEvent 0x8) :=
  ⟨rfl, rfl⟩

/-- R35, D23: three bits, the deassertion, five bits: no byte. Eight bits after it are a word of their own. -/
theorem test_edge_cuts_word :
    nextSat (clockBits [true, true, true] (busy 1 1 0 [0xAA] [])) (fun s =>
      nextSat (clockBits [true, true, true, true, true] (driveSelect true s)) (fun t => t.rxq = []) ∧
      nextSat (clockWord 0x5A (driveSelect true s)) (fun t => t.rxq = [0x5A])) := by decide

/-! ## Timely schedules (R137) -/

/-- A wordless pulse serviced late, a pumped word while deselected (95_test_vectors.md P3), a PUMP on the
free port, and a chatty master's second sample are timely. -/
theorem test_timely_admits :
    TimelyTo ([.sel false, .sel true, .service .selectEdge, .service .selectEdge] ++ txnLine 0x10 [])
      ⟨false, [], false, 0⟩ ∧
    TimelyTo (nullTxnLine ++ xferLine 0x99 ++ txnLine 0x7F []) ⟨false, [], false, 1⟩ ∧
    TimelyTo (selFallLine ++ [.clk 0x10, .event 0x4 [], .sel false]) ⟨true, [], false, 0⟩ :=
  ⟨⟨rfl, rfl⟩, ⟨rfl, rfl⟩, ⟨rfl, rfl⟩⟩

/-- (a) a word before the assertion is serviced; (b) a second word, a deassertion, or the end of the
schedule with the last word not pumped; (c) an assertion before the deassertion is serviced. -/
theorem test_timely_rejects :
    (∀ p, ¬TimelyTo [.sel false, .clk 0x10] p) ∧
    (∀ p, ¬TimelyTo (selFallLine ++ [.clk 0x10, .clk 0x01]) p) ∧
    (∀ p, ¬TimelyTo (selFallLine ++ [.clk 0x10, .sel true]) p) ∧
    (∀ p, ¬TimelyTo (selFallLine ++ [.clk 0x10]) p) ∧
    (∀ p, ¬TimelyTo (selFallLine ++ [.sel true, .sel false]) p) := by
  refine ⟨?_, ?_, ?_, ?_, ?_⟩ <;>
    · rintro p ⟨h, ho⟩
      cases h <;> cases ho

/-! ## The hypotheses of the obligations can be met -/

/-- A transaction under way meets the invariant: two bytes waiting, one slot used, an edge to come. -/
theorem busy_invariant : Invariant { busy 2 3 1 [0xCC] [0x02] with inputs := [.service .byteReady] } where
  attached := by decide
  detached := by decide
  addrByte := by intro a h; cases h; decide
  armed := by decide
  quiet := by decide
  txBound := by decide
  rxBound := by decide
  shiftBound := by intro w h; cases h
  residueBound := by intro w h; cases h
  selFollows := by decide
  alternates := by decide
  lastEdge := by intro e h; cases h
  txWf := by decide
  rxWf := by decide
  depths := by decide
  noInner := by decide
  enabled := by decide
  unbuilt := by intro h; cases h

/-- So does an idle engine with deeper queues and a schedule. -/
theorem idle_invariant (l : List Input) :
    Invariant { idle 7 9 with cfg := ⟨2, 3, []⟩, inputs := l } where
  attached := by intro h; cases h
  detached := fun _ => ⟨rfl, rfl⟩
  addrByte := by intro a h; cases h
  armed := by intro h; cases h
  quiet := fun _ => rfl
  txBound := by show 0 ≤ 2; decide
  rxBound := by show 0 ≤ 3; decide
  shiftBound := by intro w h; cases h
  residueBound := by intro w h; cases h
  selFollows := rfl
  alternates := List.isChain_nil
  lastEdge := by intro e h; cases h
  txWf := by show Memory.wf []; decide
  rxWf := by show Memory.wf []; decide
  depths := ⟨by show 0 < 2; decide, by show 0 < 3; decide⟩
  noInner := rfl
  enabled := rfl
  unbuilt := by intro h; cases h

/-- And an armed engine with an address byte waiting. -/
theorem armed_invariant : Invariant { armed 1 [] [0x10] with inputs := [.service .byteReady] } where
  attached := by decide
  detached := by decide
  addrByte := by intro a h; cases h
  armed := by decide
  quiet := by decide
  txBound := by decide
  rxBound := by decide
  shiftBound := by intro w h; cases h
  residueBound := by intro w h; cases h
  selFollows := by decide
  alternates := by decide
  lastEdge := by intro e h; cases h
  txWf := by decide
  rxWf := by decide
  depths := by decide
  noInner := by decide
  enabled := by decide
  unbuilt := by intro h; cases h

theorem idle_idle (l : List Input) : Idle { idle 7 9 with cfg := ⟨2, 3, []⟩, inputs := l } where
  built := rfl
  inactive := rfl
  rxEmpty := rfl
  txEmpty := rfl
  noWord := rfl
  noResidue := rfl
  selHigh := rfl
  sampledHigh := rfl
  noPending := rfl
  enabled := rfl
  noInner := rfl
  depths := ⟨by show 0 < 2; decide, by show 0 < 3; decide⟩

theorem witness_StepKeepsInvariant : ∃ s t, Invariant s ∧ step s = .next t :=
  ⟨_, _, busy_invariant, rfl⟩

theorem witness_DecodeInvertsEncode :
    (Instr.construct ⟨255, 0, 1, 128, 254⟩ 255 0).wf = true ∧ 0 < 1 := by decide

theorem witness_ReservedDispatchWords :
    (10 ≤ (0xA#4).toNat ∧ 10 ≤ (0xF#4).toNat) ∧
    (0x0#4 ∈ [0x0#4, 0x1#4, 0x2#4, 0x3#4, 0x7#4, 0x8#4]) ∧
    (0x8#4 ∈ [0x0#4, 0x1#4, 0x2#4, 0x3#4, 0x7#4, 0x8#4]) ∧
    ((0x3#4, 0b00#2) ∈ [(0x3#4, 0b00#2), (0x3#4, 0b01#2), (0x7#4, 0b00#2), (0x7#4, 0b10#2),
      (0x8#4, 0b00#2), (0x8#4, 0b01#2)]) := by decide

theorem witness_dispatchWords :
    (∃ ops i r, decodeWord 0x08#6 ops = .ok (i, r)) ∧ (∃ ops i r, decodeWord 0x0A#6 ops = .ok (i, r)) :=
  ⟨⟨[0xFF#8], .rxDiscard 0xFF#8, [], rfl⟩, ⟨[0x00#8], .rxData 0x00#8, [], rfl⟩⟩

/-- An external event, a reserved code, an internal event (RX_BYTE and REINIT, the lowest and the highest
code), and an internal step that was placed, in a row and in none; Construct and Tick before construction. -/
theorem witness_StepRunsTheDispatchedEvent :
    (∃ (s : State) (code : BitVec 4) (ops : List Byte) (i : Instr) (r : List Byte), s.inner = none ∧
      s.inputs = [.event code ops] ∧ code ∉ [0x2#4, 0x3#4, 0x7#4, 0x8#4, 0x9#4] ∧ s.constructed = true ∧
      decode .event (dispatchByte code s.state.code :: ops) = .ok (i, r)) ∧
    (∃ (s : State) (code : BitVec 4) (ops : List Byte) (e : DecodeError), s.inner = none ∧
      s.inputs = [.event code ops] ∧ code ∉ [0x2#4, 0x3#4, 0x7#4, 0x8#4, 0x9#4] ∧ s.constructed = true ∧
      decode .event (dispatchByte code s.state.code :: ops) = .error e) ∧
    (∃ (s : State) (ops : List Byte) (i : Instr) (r : List Byte), s.inner = none ∧
      s.inputs = [.event 0x6 ops] ∧ s.constructed = false ∧
      decode .event (dispatchByte 0x6 s.state.code :: ops) = .ok (i, r)) ∧
    (∃ s : State, s.inner = none ∧ s.inputs = [.event 0x5 []] ∧ s.constructed = false) ∧
    (∃ s : State, s.inner = none ∧ s.inputs = [.event 0x2 [0x00]]) ∧
    (∃ s : State, s.inner = none ∧ s.inputs = [.event 0x9 []]) ∧
    (∃ (s : State) (code : BitVec 4) (ops : List Byte) (i : Instr) (r : List Byte),
      s.inner = some (code, ops) ∧ decode .event (dispatchByte code s.state.code :: ops) = .ok (i, r)) ∧
    (∃ (s : State) (code : BitVec 4) (ops : List Byte) (e : DecodeError),
      s.inner = some (code, ops) ∧ decode .event (dispatchByte code s.state.code :: ops) = .error e) :=
  ⟨⟨{ State.reset with inputs := [.event 0x0 []] }, 0x0, [], _, _, rfl, rfl, by decide, rfl, rfl⟩,
   ⟨{ State.reset with inputs := [.event 0xA []] }, 0xA, [], _, rfl, rfl, by decide, rfl, rfl⟩,
   ⟨{ unbuilt true with inputs := [.event 0x6 [0, 0, 0, 0, 0, 0, 0]] }, [0, 0, 0, 0, 0, 0, 0], _, _, rfl,
     rfl, rfl, rfl⟩,
   ⟨{ unbuilt true with inputs := [.event 0x5 []] }, rfl, rfl, rfl⟩,
   ⟨{ State.reset with inputs := [.event 0x2 [0x00]] }, rfl, rfl⟩,
   ⟨{ State.reset with inputs := [.event 0x9 []] }, rfl, rfl⟩,
   ⟨{ State.reset with inner := some (0x2, [0xFF]) }, 0x2, [0xFF], _, _, rfl, rfl⟩,
   ⟨{ State.reset with inner := some (0x3, []) }, 0x3, [], _, rfl, rfl⟩⟩

theorem witness_StepServicesInterrupts :
    (∃ (s : State) (e : SelEdge) (p : List SelEdge) (i : Instr) (r : List Byte), s.inner = none ∧
      s.inputs = [.service .selectEdge] ∧ s.irqEnabled = true ∧ s.pendingSel = e :: p ∧
      decode .event [dispatchByte e.event.code s.state.code] = .ok (i, r)) ∧
    (∃ s : State, s.inner = none ∧ s.inputs = [.service .byteReady] ∧ s.irqEnabled = true) ∧
    (∃ s : State, s.inner = none ∧ s.inputs = [.service .selectEdge] ∧ s.pendingSel = []) ∧
    (∃ s : State, s.inner = none ∧ s.inputs = [.service .byteReady] ∧ s.irqEnabled = false) :=
  ⟨⟨{ State.reset with inputs := [.service .selectEdge], pendingSel := [.fall] }, .fall, [], _, _,
      rfl, rfl, rfl, rfl, rfl⟩,
   ⟨{ State.reset with inputs := [.service .byteReady] }, rfl, rfl, rfl⟩,
   ⟨{ State.reset with inputs := [.service .selectEdge] }, rfl, rfl, rfl⟩,
   ⟨{ State.reset with inputs := [.service .byteReady], irqEnabled := false }, rfl, rfl, rfl⟩⟩

theorem witness_StepClocksWords :
    (∃ s : State, s.inner = none ∧ s.inputs = [.clk 0xFF] ∧ s.selN = false ∧ s.frameIdx = 0) ∧
    (∃ s : State, s.inner = none ∧ s.inputs = [.clk 0xFF] ∧ s.selN = false ∧ 0 < s.frameIdx) ∧
    (∃ s : State, s.inner = none ∧ s.inputs = [.clk 0xFF] ∧ s.selN = true) ∧
    (∃ s : State, s.inner = none ∧ s.inputs = [.bit true]) ∧
    (∃ s : State, s.inner = none ∧ s.inputs = []) :=
  ⟨⟨{ State.reset with inputs := [.clk 0xFF], selN := false }, rfl, rfl, rfl, rfl⟩,
   ⟨{ State.reset with inputs := [.clk 0xFF], selN := false, frameIdx := 1 }, rfl, rfl, rfl, by decide⟩,
   ⟨{ State.reset with inputs := [.clk 0xFF] }, rfl, rfl, rfl⟩,
   ⟨{ State.reset with inputs := [.bit true] }, rfl, rfl⟩, ⟨State.reset, rfl, rfl⟩⟩

theorem witness_SelectDetectorPostsEdges :
    (∃ s : State, s.inner = none ∧ s.inputs = [.sel false] ∧ s.selQ = s.selN ∧ s.constructed = true ∧
      s.selQ = true) ∧
    (∃ s : State, s.inner = none ∧ s.inputs = [.sel false] ∧ s.selQ = s.selN ∧ s.constructed = false ∧
      s.selQ = true) ∧
    (∃ s : State, s.inner = none ∧ s.inputs = [.sel true] ∧ s.selQ = s.selN ∧ s.constructed = true ∧
      s.selQ = false ∧ s.shift ≠ none) ∧
    (∃ s : State, s.inner = none ∧ s.inputs = [.sel true] ∧ s.selQ = s.selN ∧ s.selQ = true) :=
  ⟨⟨{ State.reset with inputs := [.sel false] }, rfl, rfl, rfl, rfl, rfl⟩,
   ⟨{ unbuilt true with inputs := [.sel false] }, rfl, rfl, rfl, rfl, rfl⟩,
   ⟨{ State.reset with inputs := [.sel true], selN := false, selQ := false, shift := some ⟨[true], 0x80⟩ },
     rfl, rfl, rfl, rfl, rfl, by decide⟩,
   ⟨{ State.reset with inputs := [.sel true] }, rfl, rfl, rfl, rfl⟩⟩

/-- SEL_ASSERT, SEL_DEASSERT_I, RX_DISCARD; the last free slot of two. -/
theorem witness_inactive :
    ∃ s : State, s.state = .inactive ∧ s.txq.length < s.cfg.txDepth ∧ s.txq.length + 1 = s.cfg.txDepth :=
  ⟨State.reset, by decide⟩

/-- SEL_REASSERT_W, SEL_DEASSERT_W, RX_ADDR, CB_START. -/
theorem witness_waitingAddress : ∃ (s : State) (a : RegAddr), s.state = .waitingAddress ∧ s.addr = some a :=
  ⟨{ armed 1 [0x00] [] with addr := some 0xFF }, 0xFF, rfl, rfl⟩

/-- SEL_REASSERT_T, SEL_DEASSERT_T, CB_END, RX_DATA, TX_PRIME; at and past the ends of the buffers. -/
theorem witness_transferring :
    (∃ (s : State) (a : RegAddr) (d : Buffers), s.state = .transferring ∧ s.addr = some a ∧
      s.bufs = some d ∧ s.txq.length < s.cfg.txDepth ∧ s.rxCount + 1 = d.rxLen ∧ s.txCount + 1 = d.txLen) ∧
    (∃ (s : State) (a : RegAddr) (d : Buffers), s.state = .transferring ∧ s.addr = some a ∧
      s.bufs = some d ∧ s.txq.length < s.cfg.txDepth ∧ s.rxCount = d.rxLen ∧ s.txCount = d.txLen) :=
  ⟨⟨busy 1 2 4 [] [], 0x10, ⟨0x100, 3, 0x200, 5⟩, by decide⟩,
   ⟨busy 1 3 5 [] [], 0x10, ⟨0x100, 3, 0x200, 5⟩, by decide⟩⟩

/-- The last byte of the buffer, and the first past it. -/
theorem witness_RxDataWritesOneByteInBounds :
    (∃ (s t : State) (b : Byte) (d : Buffers), s.rxMem.wf ∧ s.bufs = some d ∧
      exec (.rxData b) s = .next t ∧ s.rxCount < d.rxLen ∧ s.rxCount + 1 = d.rxLen) ∧
    (∃ (s t : State) (b : Byte) (d : Buffers), s.rxMem.wf ∧ s.bufs = some d ∧
      exec (.rxData b) s = .next t ∧ ¬s.rxCount < d.rxLen) :=
  ⟨⟨busy 1 5 4 [] [], _, 0x05, ⟨0x100, 3, 0x200, 5⟩, by decide, rfl, rfl, by decide, by decide⟩,
   ⟨busy 1 6 5 [] [], _, 0x06, ⟨0x100, 3, 0x200, 5⟩, by decide, rfl, rfl, by decide⟩⟩

/-- The PUMP statements: nothing received, and something received in each state. -/
theorem witness_pump :
    (∃ s : State, s.rxq = []) ∧
    (∃ s : State, (s.state = .transferring → s.bufs.isSome) ∧ s.state = .inactive ∧ s.rxq ≠ []) ∧
    (∃ (s : State) (b : Byte) (q : List Byte), (s.state = .transferring → s.bufs.isSome) ∧
      s.state = .waitingAddress ∧ s.rxq = b :: q ∧ q ≠ []) ∧
    (∃ (s : State) (q1 q2 : List Byte), (s.state = .transferring → s.bufs.isSome) ∧
      s.state = .transferring ∧ s.rxq = q1 ++ q2 ∧ q1 ≠ [] ∧ q2 ≠ []) :=
  ⟨⟨State.reset, rfl⟩, ⟨{ State.reset with rxq := [0x01] }, by decide⟩,
   ⟨armed 2 [] [0x10, 0x01], 0x10, [0x01], by decide⟩,
   ⟨busy 2 2 0 [] [0x01, 0x02], [0x01], [0x02], by decide⟩⟩

/-- Two bytes, of which the first is the last that fits. -/
theorem witness_PumpStoresInOrder :
    ∃ (s t : State) (d : Buffers), s.rxMem.wf ∧ s.state = .transferring ∧ s.bufs = some d ∧
      exec .pump s = .next t ∧ 0 < s.rxq.length ∧ s.rxCount + 0 < d.rxLen ∧ ¬s.rxCount + 1 < d.rxLen :=
  ⟨busy 2 6 4 [] [0x05, 0x06], _, ⟨0x100, 3, 0x200, 5⟩, by decide, rfl, rfl, rfl, by decide, by decide,
    by decide⟩

/-- A script whose row for the callback and the address stands behind rows for another callback and another
address, and before one for the same. -/
theorem witness_StartAnswersAreReadBack :
    (∃ (s : State) (a : RegAddr) (w : StartAnswer) (pre post : List ScriptRow),
      s.script = pre ++ ⟨s.cbStart, a, w⟩ :: post ∧
      (∀ r ∈ pre, ¬(r.handle = s.cbStart ∧ r.address = a)) ∧ pre.length = 2 ∧ post ≠ []) ∧
    (∃ (s : State) (a : RegAddr), s.script ≠ [] ∧
      ∀ r ∈ s.script, ¬(r.handle = s.cbStart ∧ r.address = a)) ∧
    (∃ m : Memory, m ≠ [] ∧ m.wf) :=
  ⟨⟨{ armed 1 [] [] with
      script := [⟨1, 0x10, answer10⟩, ⟨0, 0x11, answer10⟩, ⟨0, 0x10, answer10⟩, ⟨0, 0x10, answer10⟩] },
    0x10, answer10, [⟨1, 0x10, answer10⟩, ⟨0, 0x11, answer10⟩], [⟨0, 0x10, answer10⟩],
    rfl, by decide, rfl, by decide⟩,
   ⟨armed 1 [] [], 0x11, by decide⟩, ⟨[(3, 0x01), (4, 0xFF)], by decide⟩⟩

theorem witness_construct :
    (∃ (s : State) (b : Binding), s.constructed = false ∧ b ∈ s.cfg.bindings) ∧
    (∃ (s : State) (b : Binding), s.constructed = false ∧ b ∉ s.cfg.bindings) ∧
    (∃ (s : State) (i : Instr), exec i s = .fault .configurationError) :=
  ⟨⟨unbuilt true, ⟨0, 0, 0, 0, 0⟩, by decide⟩, ⟨unbuilt true, ⟨0, 0, 0, 0, 1⟩, by decide⟩,
   ⟨unbuilt true, .construct ⟨9, 9, 9, 9, 9⟩ 0 0, rfl⟩⟩

theorem witness_wireByte :
    (∃ (s : State) (v : Byte) (q : List Byte), s.shift = none ∧ s.txq = v :: q ∧
      s.rxq.length < s.cfg.rxDepth) ∧
    (∃ s : State, s.shift = none ∧ s.txq = [] ∧ s.rxq.length < s.cfg.rxDepth) ∧
    (∃ (s t : State) (m : Byte), exec (.wireAddr m) s = .next t) ∧
    (∃ (s t : State) (m : Byte), exec (.wireData m) s = .next t) :=
  ⟨⟨armed 1 [0x00] [], 0x00, [], by decide⟩, ⟨State.reset, by decide⟩,
   ⟨armed 1 [0x00] [], _, 0x10, rfl⟩, ⟨busy 1 1 0 [0xAA] [], _, 0x01, rfl⟩⟩

theorem witness_ContractViolationsFault :
    (∃ s : State, s.shift = none ∧ s.cfg.rxDepth ≤ s.rxq.length) ∧
    (∃ s : State, s.state = .inactive ∧ s.cfg.txDepth ≤ s.txq.length) ∧
    (∃ s : State, s.state = .transferring ∧ s.bufs.isSome ∧ s.cfg.txDepth ≤ s.txq.length) :=
  ⟨⟨busy 1 1 0 [0xAA] [0x01], by decide⟩, ⟨{ State.reset with txq := [0x00] }, by decide⟩,
   ⟨busy 1 1 0 [0xAA] [], by decide⟩⟩

theorem witness_PartialWord :
    ∃ (s : State) (bits : List Bool), s.shift = none ∧ bits.length < 8 ∧ bits.length = 7 :=
  ⟨State.reset, [true, false, true, false, true, false, true], by decide⟩

theorem witness_OperationsBelongToTheirState :
    (∃ s : State, s.state ≠ .inactive) ∧ (∃ s : State, s.state ≠ .waitingAddress) ∧
    (∃ s : State, s.state ≠ .transferring) :=
  ⟨⟨armed 1 [] [], by decide⟩, ⟨State.reset, by decide⟩, ⟨State.reset, by decide⟩⟩

/-- The statements about every instruction that completes: a change of state, of a counter, of `diag`
both ways, a call, no call. -/
theorem witness_completes :
    (∃ (i : Instr) (s t : State), exec i s = .next t ∧ t.state ≠ s.state ∧ s.diag = true ∧ t.diag = false) ∧
    (∃ (i : Instr) (s t : State), exec i s = .next t ∧ t.rxCount ≠ s.rxCount ∧ t.txCount ≠ s.txCount ∧
      t.startCalls = s.startCalls) ∧
    (∃ (i : Instr) (s t : State), exec i s = .next t ∧ s.diag = false ∧ t.diag = true ∧
      (∀ n f g, i ≠ .construct n f g) ∧ (∀ b, i ≠ .rxData b) ∧ i ≠ .pump) :=
  ⟨⟨.selAssert, State.reset, _, rfl, by decide, rfl, rfl⟩,
   ⟨.rxData 0x01, busy 1 1 0 [] [], _, rfl, by decide, by decide, rfl⟩,
   ⟨.diagTick, busy 1 1 0 [] [], _, rfl, rfl, rfl, by simp, by simp, by simp⟩⟩

theorem witness_TransactionsAreIndependent :
    ∃ (s : State) (n m : Nat), s.state = .inactive ∧ s.inputs ≠ [] ∧ (n, m) ≠ (s.txCount, s.rxCount) :=
  ⟨{ idle 7 9 with inputs := txnLine 0x10 [0x01] }, 0, 0, by decide⟩

theorem witness_HandlersAlwaysComplete :
    (∃ (s : State) (more : List Input), Invariant s ∧ s.inputs = .service .byteReady :: more) ∧
    (∃ (s : State) (more : List Input), Invariant s ∧ s.inputs = .service .selectEdge :: more) :=
  ⟨⟨_, [], busy_invariant, rfl⟩, ⟨_, [], idle_invariant [.service .selectEdge], rfl⟩⟩

/-- A timely schedule that stops in the middle of a transaction, and one with a word outside a frame. -/
theorem witness_TimelyRunsNeverUnderrun :
    (∃ (s : State) (schedule : List Input) (p : Timing), Idle s ∧ TimelyTo schedule p ∧
      s.inputs = schedule ∧ p.outside = 0 ∧ p.low = true) ∧
    (∃ (s : State) (schedule : List Input) (p : Timing), Idle s ∧ TimelyTo schedule p ∧
      s.inputs = schedule ∧ p.outside = 1) :=
  ⟨⟨_, selFallLine ++ xferLine 0x10 ++ tickLine ++ xferLine 0x01, ⟨true, [], false, 0⟩, idle_idle _,
     ⟨rfl, rfl⟩, rfl, rfl, rfl⟩,
   ⟨_, xferLine 0x99 ++ nullTxnLine, ⟨false, [], false, 1⟩, idle_idle _, ⟨rfl, rfl⟩, rfl, rfl⟩⟩

theorem witness_Transaction :
    ∃ (s : State) (a : Byte) (ds : List Byte) (more : List Input), Invariant s ∧ Idle s ∧
      s.inputs = txnLine a ds ++ more ∧ ds ≠ [] :=
  ⟨_, 0x10, [0x01, 0x02], tickLine, idle_invariant _, idle_idle _, rfl, by decide⟩

theorem witness_EmptyCycle :
    ∃ (s : State) (more : List Input), Idle s ∧ s.inputs = nullTxnLine ++ more :=
  ⟨_, tickLine, idle_idle _, rfl⟩

/-- A bit in the middle of a word, the last but one, and the eighth with room and without. -/
theorem witness_ClockedBitIsOnePeriod :
    (∃ (s : State) (w : PartialWord), s.shift = some w ∧ w.sampled.length = 6) ∧
    (∃ (s : State) (w : PartialWord) (b : Bool) (m : Byte), s.shift = some w ∧
      (List.range 8).map (fun k => m.getLsbD (7 - k)) = w.sampled ++ [b] ∧
      s.rxq.length < s.cfg.rxDepth) ∧
    (∃ (s : State) (w : PartialWord) (b : Bool) (m : Byte), s.shift = some w ∧
      (List.range 8).map (fun k => m.getLsbD (7 - k)) = w.sampled ++ [b] ∧
      s.cfg.rxDepth ≤ s.rxq.length) :=
  ⟨⟨{ State.reset with shift := some ⟨[true, false, false, false, false, false], 0x80⟩ }, _, rfl, rfl⟩,
   ⟨{ State.reset with shift := some ⟨[true, false, false, false, false, false, false], 0x80⟩ }, _,
     true, 0x81, rfl, by decide, by decide⟩,
   ⟨{ State.reset with
      shift := some ⟨[true, false, false, false, false, false, false], 0x80⟩, rxq := [0x00] }, _,
     true, 0x81, rfl, by decide, by decide⟩⟩

theorem witness_EdgeCutsOffAPartialWord :
    ∃ (s : State) (w : PartialWord), s.inner = none ∧ s.inputs = [.sel true] ∧ s.selN ≠ true ∧
      s.shift = some w ∧ s.rxq.length < s.cfg.rxDepth :=
  ⟨{ busy 1 1 0 [] [] with inputs := [.sel true], shift := some ⟨[true, false, true], 0xAA⟩ }, _, rfl,
    rfl, by decide, rfl, by decide⟩

/-- A step that arms nothing, from each state. -/
theorem witness_CallbacksFireOncePerCycle :
    (∃ s t : State, Invariant s ∧ s.state = .inactive ∧ Host.Core.run core 1 s = .next t ∧ ¬arms s t) ∧
    (∃ s t : State, Invariant s ∧ s.state = .waitingAddress ∧ Host.Core.run core 1 s = .next t ∧
      ¬arms s t) ∧
    (∃ (s t : State) (a : RegAddr), Invariant s ∧ s.state = .transferring ∧ s.addr = some a ∧
      Host.Core.run core 1 s = .next t ∧ ¬arms s t) :=
  ⟨⟨_, _, idle_invariant [.clk 0x01], rfl, rfl, fun h => by cases h.2⟩,
   ⟨_, _, armed_invariant, rfl, rfl, fun h => by cases h.1⟩,
   ⟨_, _, 0x10, busy_invariant, rfl, rfl, rfl, fun h => by cases h.1⟩⟩

/-- A built engine, between transactions and in one; no engine, with CONSTRUCT and with another instruction. -/
theorem witness_EngineIsBuiltOnceAndStays :
    (∃ s t : State, s.constructed = true ∧ s.state = .inactive ∧ step s = .next t) ∧
    (∃ s t : State, s.constructed = true ∧ s.state = .transferring ∧ step s = .next t) ∧
    (∃ (i : Instr) (s t : State), exec i s = .next t ∧ s.constructed = false ∧ t.constructed = true) ∧
    (∃ (i : Instr) (s t : State), exec i s = .next t ∧ s.constructed = false ∧ t.constructed = false) :=
  ⟨⟨{ State.reset with inputs := [.sel false] }, _, rfl, rfl, rfl⟩,
   ⟨{ busy 1 1 0 [0xAA] [] with inputs := [.clk 0x01] }, _, rfl, rfl, rfl⟩,
   ⟨.construct ⟨0, 0, 0, 0, 0⟩ 1 2, unbuilt true, _, rfl, rfl, rfl⟩,
   ⟨.wireAddr 0x10, unbuilt true, _, rfl, rfl, rfl⟩⟩

theorem witness_TraceLinesAreTimely :
    ∃ lines : List (List Input),
      (∀ l ∈ lines, (∃ a ds, l = txnLine a ds) ∨ l = nullTxnLine ∨ l = tickLine ∨ ∃ m, l = xferLine m) ∧
      (∀ m, xferLine m ∉ lines) ∧ lines.length = 3 :=
  ⟨[txnLine 0x10 [0x01], nullTxnLine, tickLine],
    by
      intro l h
      simp only [List.mem_cons, List.not_mem_nil, or_false] at h
      rcases h with rfl | rfl | rfl
      · exact .inl ⟨_, _, rfl⟩
      · exact .inr (.inl rfl)
      · exact .inr (.inr (.inl rfl)),
    by simp [xferLine, txnLine, nullTxnLine, tickLine, selFallLine, selRiseLine], rfl⟩

end Sys2Proof.Tests
end

section
/-! PROOFS. The select-edge family (40_select_edge.md). -/

namespace Sys2Proof.Machine

/-- The first row whose masked bits agree with a dispatch word reads the word's operands (R58). -/
theorem decodeWord_of_find {w : BitVec 6} {r : Row}
    (h : rows.find? (fun r => w &&& r.mask = r.value) = some r) (operands : List Byte) :
    decodeWord w operands = r.operand operands := by
  simp only [decodeWord, h]

/-- In `WaitingAddress`, SEL_DEASSERT_W is a return to `Inactive` and a `P.reinit()` (R75). -/
theorem exec_selDeassertW {s : State} (h : s.state = .waitingAddress) :
    exec .selDeassertW s = .next (reinitPort { s with state := .inactive }) :=
  requireState_of h _

/-- Settles O16: row 4 of the table is the one the word 0x05 finds, and what `P.reinit()` empties is all
that changes beside the state. -/
theorem selDeassertWLeavesNoTrace : Obligations.SelDeassertWLeavesNoTrace := by
  refine ⟨by decide, fun ops => ?_, fun s hs => ?_⟩
  · have hrow : rows.find? (fun r => 0x05#6 &&& r.mask = r.value) = some rows[4] := rfl
    exact decodeWord_of_find hrow ops
  · rw [exec_selDeassertW hs, reinitPort]

end Sys2Proof.Machine
end

section
/-! PROOFS. The byte-pump family (41_byte_pump.md). -/

namespace Sys2Proof.Machine

/-- A row with one operand byte decodes to its own instruction only, of some byte (log 13). -/
theorem byteOperand_eq_ok {mk : Byte → Instr} {ops r : List Byte} {i : Instr}
    (h : byteOperand mk ops = .ok (i, r)) : ∃ b, i = mk b := by
  cases ops with
  | nil => cases h
  | cons b rest =>
    cases h
    exact ⟨b, rfl⟩

/-- In `Transferring`, RX_DATA is what PUMP does with a byte it popped (R86, R90). -/
theorem exec_rxData_eq_rxByte {s : State} (h : s.state = .transferring) (b : Byte) :
    exec (.rxData b) s = rxByte b s := by
  rw [rxByte, h]
  rfl

/-- In `Transferring` with a free slot, TX_PRIME pushes the next byte of the stream and counts it
(R91, R95). -/
theorem exec_txPrime {s : State} {d : Buffers} (hs : s.state = .transferring) (hd : s.bufs = some d)
    (hf : s.txq.length < s.cfg.txDepth) :
    exec .txPrime s = .next { s with
      txq := s.txq ++ [streamByte d s.txMem s.txCount]
      txCount := s.txCount + 1 } := by
  calc exec .txPrime s
      = andThen (txPush (nextTxByte d s) s) (fun t => .next { t with txCount := t.txCount + 1 }) := by
        rw [exec, execTxPrime, requireState_of hs, hd]
    _ = _ := by rw [txPush_of_free hf, andThen_next, nextTxByte_eq]

/-- Settles O18: row 6 of the table is the one the word 0x08 finds, and in `Inactive` the operation
answers the state it was given. -/
theorem rxDiscardDropsTheByte : Obligations.RxDiscardDropsTheByte := by
  refine ⟨by decide, fun ops i r h => ?_, fun s b hs => requireState_of hs _⟩
  have hrow : rows.find? (fun r => 0x08#6 &&& r.mask = r.value) = some rows[6] := rfl
  rw [decodeWord_of_find hrow] at h
  exact byteOperand_eq_ok h

/-- Settles O20: row 8 of the table is the one the word 0x0A finds, and the operation is the
`Transferring` case of what a received byte can do. -/
theorem rxDataStoresCountsAndPrimes : Obligations.RxDataStoresCountsAndPrimes := by
  refine ⟨by decide, fun ops i r h => ?_, fun s b d hs hd => ?_⟩
  · have hrow : rows.find? (fun r => 0x0A#6 &&& r.mask = r.value) = some rows[8] := rfl
    rw [decodeWord_of_find hrow] at h
    exact byteOperand_eq_ok h
  · rw [exec_rxData_eq_rxByte hs]
    rcases rxByte_cases b s with ⟨h, -⟩ | ⟨h, -⟩ | ⟨-, d', hd', he⟩ | ⟨-, hn, -⟩
    · simp [hs] at h
    · simp [hs] at h
    · obtain rfl : d = d' := Option.some.inj (hd.symm.trans hd')
      exact he
    · simp [hd] at hn

/-- Settles O22: row 9 of the table is the one the word 0x0E finds, and the byte pushed is the transmit
stream's at `txCount`. -/
theorem txPrimePushesNextByte : Obligations.TxPrimePushesNextByte := by
  refine ⟨by decide, fun ops => ?_, fun s d hs hd hf => exec_txPrime hs hd hf⟩
  have hrow : rows.find? (fun r => 0x0E#6 &&& r.mask = r.value) = some rows[9] := rfl
  exact decodeWord_of_find hrow ops

end Sys2Proof.Machine
end

section
/-! PROOFS. The host handshake family (42_host_handshake.md). -/

namespace Sys2Proof.Machine

/-! ## What an operation that completes gives -/

/-- SEL_ASSERT completes from `Inactive` with a free slot only, with the engine armed (R72). -/
theorem exec_selAssert_eq_next {s t : State} : exec .selAssert s = .next t ↔
    s.state = .inactive ∧ s.txq.length < s.cfg.txDepth ∧ t = { s with
      txCount := 0, rxCount := 0, state := .waitingAddress, txq := s.txq ++ [placeholder],
      diag := false } := by
  simp only [exec, execSelAssert, requireState_eq_next, andThen_eq_next, txPush_eq_next]
  constructor
  · rintro ⟨hs, u, ⟨hf, rfl⟩, h⟩
    cases h
    exact ⟨hs, hf, rfl⟩
  · rintro ⟨hs, hf, rfl⟩
    exact ⟨hs, _, ⟨hf, rfl⟩, rfl⟩

/-- CONSTRUCT completes where no engine exists and the binding resolves, with every field of the engine
set (R111, D10, D22). -/
theorem exec_construct_eq_next {s t : State} {n : Binding} {f g : Nat} :
    exec (.construct n f g) s = .next t ↔
      s.constructed = false ∧ n ∈ s.cfg.bindings ∧ t = { reinitPort s with
        constructed := true, binding := n, cbStart := f, cbEnd := g, state := .inactive, addr := none,
        bufs := none, txCount := 0, rxCount := 0, diag := true, selQ := s.selN, pendingSel := [],
        irqEnabled := true } := by
  simp only [exec, execConstruct, raiseConfigurationError]
  by_cases hc : s.constructed = true
  · simp [hc]
  · by_cases hn : n ∈ s.cfg.bindings <;> simp [hc, hn, eq_comm, reinitPort]

/-- CB_START completes in `WaitingAddress` with an address, as one call of `Start` (R105). -/
theorem exec_cbStart_eq_next {s t : State} : exec .cbStart s = .next t ↔
    s.state = .waitingAddress ∧ ∃ a, s.addr = some a ∧ t = callStart a s := by
  cases ha : s.addr <;> simp [exec, execCbStart, requireState_eq_next, ha, @eq_comm _ t]

/-- CB_END completes in `Transferring` with an address, as one call of `End` (R108). -/
theorem exec_cbEnd_eq_next {s t : State} : exec .cbEnd s = .next t ↔
    s.state = .transferring ∧ ∃ a, s.addr = some a ∧ t = callEnd a s := by
  cases ha : s.addr <;> simp [exec, execCbEnd, requireState_eq_next, ha, @eq_comm _ t]

/-- SEL_DEASSERT_T is CB_END and then the return to `Inactive` with the peripheral emptied (R74). -/
theorem exec_selDeassertT_eq_next {s t : State} : exec .selDeassertT s = .next t ↔
    ∃ u, exec .cbEnd s = .next u ∧
      t = reinitPort { u with state := .inactive, addr := none, bufs := none } := by
  simp only [exec, execSelDeassertT, requireState_eq_next, andThen_eq_next]
  constructor
  · rintro ⟨-, u, hu, h⟩
    cases h
    exact ⟨u, hu, rfl⟩
  · rintro ⟨u, hu, rfl⟩
    exact ⟨(requireState_eq_next.1 hu).1, u, hu, rfl⟩

/-- TX_PRIME completes in `Transferring` with buffers and a free slot, as one push counted (R91). -/
theorem exec_txPrime_eq_next {s t : State} : exec .txPrime s = .next t ↔
    s.state = .transferring ∧ ∃ d, s.bufs = some d ∧ s.txq.length < s.cfg.txDepth ∧
      t = { s with txq := s.txq ++ [nextTxByte d s], txCount := s.txCount + 1 } := by
  cases hd : s.bufs <;>
    simp [exec, execTxPrime, requireState_eq_next, andThen_eq_next, txPush_eq_next, hd, @eq_comm _ t,
      and_assoc]

/-- In `WaitingAddress`, RX_ADDR is what PUMP does with a byte it popped (R86, R89). -/
theorem exec_rxAddr_eq_rxByte {s : State} (h : s.state = .waitingAddress) (b : Byte) :
    exec (.rxAddr b) s = rxByte b s := by
  rw [rxByte, h]
  rfl

/-! ## `diag` across the shared operations -/

/-- A received byte leaves `diag` alone. -/
theorem rxByte_diag {b : Byte} {s t : State} (h : rxByte b s = .next t) : t.diag = s.diag := by
  rw [rxByte_frame h]
  rfl

/-- PUMP leaves `diag` alone, over any number of waiting bytes. -/
theorem execPump_diag {s t : State} (h : execPump s = .next t) : t.diag = s.diag := by
  refine execPump_induction (motive := fun s t => t.diag = s.diag) (fun _ _ => rfl) ?_ h
  intro s b q u t _ hu _ _ ih
  exact ih.trans (rxByte_diag (s := { s with rxq := q }) hu)

/-- Clock periods leave `diag` alone. -/
theorem clockBits_diag {bits : List Bool} {s t : State} (h : clockBits bits s = .next t) :
    t.diag = s.diag := by
  rw [clockBits_frame h]
  rfl

/-! ## `diag` across an instruction -/

/-- SEL_ASSERT, DIAG_TICK and CONSTRUCT apart, an instruction that completes leaves `diag` as it was
(R79). -/
theorem exec_keeps_diag {i : Instr} {s t : State} (h : exec i s = .next t) (ha : i ≠ .selAssert)
    (hd : i ≠ .diagTick) (hc : ∀ n f g, i ≠ .construct n f g) : t.diag = s.diag := by
  cases i with
  | selAssert => exact absurd rfl ha
  | diagTick => exact absurd rfl hd
  | construct n f g => exact absurd rfl (hc n f g)
  | selReassertW | selReassertT | rxDiscard b | selDeassertI | selDeassertW =>
    obtain ⟨-, he⟩ := requireState_eq_next.1 h
    cases he
    rfl
  | selDeassertT =>
    obtain ⟨u, hu, rfl⟩ := exec_selDeassertT_eq_next.1 h
    obtain ⟨-, a, -, rfl⟩ := exec_cbEnd_eq_next.1 hu
    rfl
  | rxAddr b =>
    obtain ⟨hs, -⟩ := requireState_eq_next.1 h
    exact rxByte_diag ((exec_rxAddr_eq_rxByte hs b).symm.trans h)
  | rxData b =>
    obtain ⟨hs, -⟩ := requireState_eq_next.1 h
    exact rxByte_diag ((exec_rxData_eq_rxByte hs b).symm.trans h)
  | txPrime =>
    obtain ⟨-, d, -, -, rfl⟩ := exec_txPrime_eq_next.1 h
    rfl
  | pump => exact execPump_diag h
  | cbStart =>
    obtain ⟨-, a, -, rfl⟩ := exec_cbStart_eq_next.1 h
    rfl
  | cbEnd =>
    obtain ⟨-, a, -, rfl⟩ := exec_cbEnd_eq_next.1 h
    rfl
  | pReinit =>
    cases h
    rfl
  | wireAddr b | wireData b => exact clockBits_diag h

/-- Settles O44: the three operations that write `diag` by what each gives where it completes, every
other one by `exec_keeps_diag`. -/
theorem diagChangesOnlyWhereStated : Obligations.DiagChangesOnlyWhereStated := by
  refine fun i s t h => ⟨?_, ?_, ?_, exec_keeps_diag h⟩
  · rintro rfl
    obtain ⟨-, -, rfl⟩ := exec_selAssert_eq_next.1 h
    rfl
  · rintro rfl
    cases h
    rfl
  · rintro ⟨n, f, g, rfl⟩
    obtain ⟨-, -, rfl⟩ := exec_construct_eq_next.1 h
    rfl

end Sys2Proof.Machine
end

section
/-! PROOFS. The exceptions family (60_exceptions.md). -/

namespace Sys2Proof.Machine

/-- In `Inactive` a received byte is dropped and nothing changes (R88). -/
theorem rxByte_of_inactive {s : State} (h : s.state = .inactive) (b : Byte) :
    rxByte b s = .next s := by
  rw [rxByte, h]
  exact requireState_of h _

/-- In `Inactive` PUMP empties the receive queue and changes nothing else, however many bytes wait
(R153): each is dropped, and the engine is still in `Inactive` for the rest. -/
theorem execPump_of_inactive {s : State} (h : s.state = .inactive) :
    execPump s = .next { s with rxq := [] } := by
  generalize hq : s.rxq = q
  induction q generalizing s with
  | nil => rw [execPump_nil hq, ← hq]
  | cons b q ih =>
    have hdrop : rxByte b { s with rxq := q } = .next { s with rxq := q } :=
      rxByte_of_inactive (s := { s with rxq := q }) h b
    rw [execPump_cons hq, hdrop, andThen_next]
    exact ih (s := { s with rxq := q }) h rfl

/-- Settles O24, by induction on the waiting bytes. -/
theorem spuriousBytesAreDrained : Obligations.SpuriousBytesAreDrained :=
  fun _ hs => execPump_of_inactive hs

end Sys2Proof.Machine
end

section
/-! PROOFS. The reset and hazards family (70_reset_and_hazards.md). -/

namespace Sys2Proof.Machine

/-! ## What construction sets up -/

/-- What construction sets up and nothing may undo (R179): that the engine exists, the enabled sources, the
binding and the two callbacks. -/
structure EngineSetup where
  constructed : Bool
  irqEnabled : Bool
  binding : Binding
  cbStart : Nat
  cbEnd : Nat

/-- The set-up part of a state. -/
def engineSetup (s : State) : EngineSetup :=
  ⟨s.constructed, s.irqEnabled, s.binding, s.cbStart, s.cbEnd⟩

theorem engineSetup_eq_iff {s t : State} : engineSetup t = engineSetup s ↔
    t.constructed = s.constructed ∧ t.irqEnabled = s.irqEnabled ∧ t.binding = s.binding ∧
      t.cbStart = s.cbStart ∧ t.cbEnd = s.cbEnd := by
  simp only [engineSetup, EngineSetup.mk.injEq]

/-- Where an engine exists CONSTRUCT is refused (R111, R179, log 8). -/
theorem exec_construct_of_constructed {s : State} (h : s.constructed = true) (n : Binding) (f g : Nat) :
    exec (.construct n f g) s = .refused .alreadyConstructed :=
  if_pos h

/-! ## The set-up across the shared operations -/

/-- A received byte leaves the set-up alone. -/
theorem rxByte_engineSetup {b : Byte} {s t : State} (h : rxByte b s = .next t) :
    engineSetup t = engineSetup s := by
  rw [rxByte_frame h]
  rfl

/-- PUMP leaves the set-up alone, over any number of waiting bytes. -/
theorem execPump_engineSetup {s t : State} (h : execPump s = .next t) :
    engineSetup t = engineSetup s := by
  refine execPump_induction (motive := fun s t => engineSetup t = engineSetup s) (fun _ _ => rfl) ?_ h
  intro s b q u t _ hu _ _ ih
  exact ih.trans (rxByte_engineSetup (s := { s with rxq := q }) hu)

/-- Clock periods leave the set-up alone. -/
theorem clockBits_engineSetup {bits : List Bool} {s t : State} (h : clockBits bits s = .next t) :
    engineSetup t = engineSetup s := by
  rw [clockBits_frame h]
  rfl

/-! ## The set-up across an instruction -/

/-- CONSTRUCT apart, an instruction that completes leaves the set-up as it was, built or not. -/
theorem exec_keeps_engineSetup {i : Instr} {s t : State} (h : exec i s = .next t)
    (hc : ∀ n f g, i ≠ .construct n f g) : engineSetup t = engineSetup s := by
  cases i with
  | construct n f g => exact absurd rfl (hc n f g)
  | selAssert =>
    obtain ⟨-, -, rfl⟩ := exec_selAssert_eq_next.1 h
    rfl
  | selReassertW | selReassertT | rxDiscard b | selDeassertI | selDeassertW =>
    obtain ⟨-, he⟩ := requireState_eq_next.1 h
    cases he
    rfl
  | selDeassertT =>
    obtain ⟨u, hu, rfl⟩ := exec_selDeassertT_eq_next.1 h
    obtain ⟨-, a, -, rfl⟩ := exec_cbEnd_eq_next.1 hu
    rfl
  | rxAddr b =>
    obtain ⟨hs, -⟩ := requireState_eq_next.1 h
    exact rxByte_engineSetup ((exec_rxAddr_eq_rxByte hs b).symm.trans h)
  | rxData b =>
    obtain ⟨hs, -⟩ := requireState_eq_next.1 h
    exact rxByte_engineSetup ((exec_rxData_eq_rxByte hs b).symm.trans h)
  | txPrime =>
    obtain ⟨-, d, -, -, rfl⟩ := exec_txPrime_eq_next.1 h
    rfl
  | pump => exact execPump_engineSetup h
  | cbStart =>
    obtain ⟨-, a, -, rfl⟩ := exec_cbStart_eq_next.1 h
    rfl
  | cbEnd =>
    obtain ⟨-, a, -, rfl⟩ := exec_cbEnd_eq_next.1 h
    rfl
  | diagTick | pReinit =>
    cases h
    rfl
  | wireAddr b | wireData b => exact clockBits_engineSetup h

/-- Where an engine exists every instruction that completes leaves the set-up: CONSTRUCT does not complete
there. -/
theorem exec_keeps_engineSetup_of_constructed {i : Instr} {s t : State} (hs : s.constructed = true)
    (h : exec i s = .next t) : engineSetup t = engineSetup s := by
  refine exec_keeps_engineSetup h ?_
  rintro n f g rfl
  rw [exec_construct_of_constructed hs] at h
  cases h

/-- Where no engine exists an instruction that completes makes one exactly if it is CONSTRUCT. -/
theorem exec_builds_iff {i : Instr} {s t : State} (h : exec i s = .next t) (hs : s.constructed = false) :
    t.constructed = true ↔ ∃ n f g, i = .construct n f g := by
  constructor
  · intro ht
    by_contra hn
    push Not at hn
    obtain ⟨hc, -⟩ := engineSetup_eq_iff.1 (exec_keeps_engineSetup h hn)
    simp [hc, hs] at ht
  · rintro ⟨n, f, g, rfl⟩
    obtain ⟨-, -, rfl⟩ := exec_construct_eq_next.1 h
    rfl

/-! ## What a step that completes can be -/

/-- A dispatch that completes is one instruction that does (R58). -/
theorem dispatch_eq_next {code : BitVec 4} {ops : List Byte} {s t : State}
    (h : dispatch code ops s = .next t) : ∃ i, exec i s = .next t := by
  unfold dispatch at h
  split at h
  · exact ⟨_, h⟩
  · cases h

/-- An event on the free port that completes is one instruction that does. -/
theorem presentEvent_eq_next {code : BitVec 4} {ops : List Byte} {s t : State}
    (h : presentEvent code ops s = .next t) : ∃ i, exec i s = .next t := by
  unfold presentEvent at h
  split at h
  · cases h
  · split at h
    · exact dispatch_eq_next h
    · cases h

/-- Everything one input that completes can be: nothing, a sample of the select line, an instruction, with
a posted edge consumed where one is serviced, or clock periods. -/
theorem runInput_eq_next {i : Input} {s t : State} (h : runInput i s = .next t) :
    t = s ∨ (∃ level, t = driveSelect level s) ∨
      (∃ j posted, exec j { s with pendingSel := posted } = .next t) ∨
      ∃ bits, clockBits bits s = .next t := by
  cases i with
  | sel level =>
    cases h
    exact .inr (.inl ⟨level, rfl⟩)
  | service source =>
    cases source with
    | selectEdge =>
      simp only [runInput, serviceSelect] at h
      split at h
      · next e rest _ _ =>
        obtain ⟨j, hj⟩ := dispatch_eq_next h
        exact .inr (.inr (.inl ⟨j, rest, hj⟩))
      · cases h
        exact .inl rfl
    | byteReady =>
      simp only [runInput, servicePump] at h
      split at h
      · obtain ⟨j, hj⟩ := dispatch_eq_next h
        exact .inr (.inr (.inl ⟨j, s.pendingSel, hj⟩))
      · cases h
        exact .inl rfl
  | event code ops =>
    obtain ⟨j, hj⟩ := presentEvent_eq_next h
    exact .inr (.inr (.inl ⟨j, s.pendingSel, hj⟩))
  | clk m =>
    simp only [runInput, clockInput] at h
    split at h
    · exact .inr (.inr (.inr ⟨bitsOf m, h⟩))
    · exact .inr (.inr (.inl ⟨_, s.pendingSel, h⟩))
  | bit b => exact .inr (.inr (.inr ⟨[b], (andThen_next_right _).trans h⟩))

/-! ## The set-up across a step -/

/-- Where an engine exists no input changes the set-up. -/
theorem runInput_keeps_engineSetup {i : Input} {s t : State} (hs : s.constructed = true)
    (h : runInput i s = .next t) : engineSetup t = engineSetup s := by
  rcases runInput_eq_next h with rfl | ⟨level, rfl⟩ | ⟨j, posted, hj⟩ | ⟨bits, hb⟩
  · rfl
  · rfl
  · exact exec_keeps_engineSetup_of_constructed (s := { s with pendingSel := posted }) hs hj
  · exact clockBits_engineSetup hb

/-- Where an engine exists no step changes the set-up (R179), whether it performs a placed internal step,
takes an input or is idle. -/
theorem step_keeps_engineSetup {s t : State} (hs : s.constructed = true) (h : step s = .next t) :
    engineSetup t = engineSetup s := by
  cases hi : s.inner with
  | some placed =>
    rw [step_inner hi] at h
    obtain ⟨j, hj⟩ := dispatch_eq_next h
    exact exec_keeps_engineSetup_of_constructed (s := { s with inner := none }) hs hj
  | none =>
    cases hq : s.inputs with
    | nil =>
      rw [step_idle hi hq] at h
      cases h
      rfl
    | cons i rest =>
      rw [step_input hi hq] at h
      exact runInput_keeps_engineSetup (s := { s with inputs := rest }) hs h

/-- Settles O58: CONSTRUCT is refused on an engine, a step keeps what construction set up, and CONSTRUCT
alone makes an engine where there is none. -/
theorem engineIsBuiltOnceAndStays : Obligations.EngineIsBuiltOnceAndStays := by
  refine ⟨fun s n f g hs => exec_construct_of_constructed hs n f g, fun s t hs h => ?_,
    fun i s t h hs => exec_builds_iff h hs⟩
  obtain ⟨hc, hrest⟩ := engineSetup_eq_iff.1 (step_keeps_engineSetup hs h)
  exact ⟨hc.trans hs, hrest⟩

end Sys2Proof.Machine
end

section
/-! PROOFS. Received bytes in closed form: what RX_ADDR, RX_DATA and a whole PUMP leave, and the statements
about them (41_byte_pump.md). -/

namespace Sys2Proof.Machine

/-! ## What received bytes leave -/

/-- The receive memory after data bytes stored from count `first` on, each where it is in range (R90). -/
def storeBytes (d : Buffers) : Nat → List Byte → Memory → Memory
  | _, [], mem => mem
  | first, b :: q, mem =>
    storeBytes d (first + 1) q (if first < d.rxLen then Memory.write mem (d.rxBase + first) b else mem)

/-- How many bytes are primed while data bytes are handled: after the first of them no slot is free
(R92). -/
def primedBy (q : List Byte) (s : State) : Nat := if q = [] then 0 else s.cfg.txDepth - s.txq.length

/-- What the data bytes `q` leave in `Transferring` with buffers `d` (R90, R92). -/
def receiveData (d : Buffers) (q : List Byte) (s : State) : State :=
  { s with
    rxMem := storeBytes d s.rxCount q s.rxMem
    rxCount := s.rxCount + q.length
    txq := s.txq ++ stream d s.txMem s.txCount (primedBy q s)
    txCount := s.txCount + primedBy q s }

/-- What the address byte `b` leaves in `WaitingAddress` (R89, R92, R105). -/
def openTransaction (b : Byte) (s : State) : State :=
  { s with
    addr := some (addressOperand b)
    bufs := some (descriptorOf (answerOf s (addressOperand b)).1)
    state := .transferring
    txMem := Memory.load s.txMem (answerOf s (addressOperand b)).1.txBase
      (answerOf s (addressOperand b)).1.tx
    rxMem := Memory.load s.rxMem (answerOf s (addressOperand b)).1.rxBase
      (answerOf s (addressOperand b)).1.rx
    script := (answerOf s (addressOperand b)).2
    startCalls := s.startCalls + 1
    trace := s.trace ++ [.start s.cbStart (addressOperand b)]
    txq := s.txq ++ stream (descriptorOf (answerOf s (addressOperand b)).1)
      (Memory.load s.txMem (answerOf s (addressOperand b)).1.txBase (answerOf s (addressOperand b)).1.tx)
      s.txCount (s.cfg.txDepth - s.txq.length)
    txCount := s.txCount + (s.cfg.txDepth - s.txq.length) }

@[simp] theorem primedBy_nil (s : State) : primedBy [] s = 0 := rfl

@[simp] theorem primedBy_cons (b : Byte) (q : List Byte) (s : State) :
    primedBy (b :: q) s = s.cfg.txDepth - s.txq.length := rfl

/-- Data bytes may be handled one by one: priming after the first leaves no slot free for the rest. -/
theorem receiveData_cons (d : Buffers) (b : Byte) (q : List Byte) (s : State) :
    receiveData d q (receiveData d [b] s) = receiveData d (b :: q) s := by
  have hfull : primedBy q (receiveData d [b] s) = 0 := by
    cases q with
    | nil => rfl
    | cons c q => simp [receiveData]; omega
  rw [receiveData, hfull]
  simp [receiveData, storeBytes, Nat.add_assoc, Nat.add_comm 1]

@[simp] theorem receiveData_nil (d : Buffers) (s : State) : receiveData d [] s = s := by
  simp [receiveData, storeBytes]

/-- Priming adds to the transmit path what it counts (R92). -/
theorem length_txq_receiveData (d : Buffers) (q : List Byte) (s : State) :
    (receiveData d q s).txq.length = s.txq.length + primedBy q s := by
  simp only [receiveData, List.length_append, stream_length]

theorem length_txq_openTransaction (b : Byte) (s : State) :
    (openTransaction b s).txq.length = s.txq.length + (s.cfg.txDepth - s.txq.length) := by
  simp only [openTransaction, List.length_append, stream_length]

/-! ## One received byte -/

theorem state_cases (s : State) :
    s.state = .inactive ∨ s.state = .waitingAddress ∨ s.state = .transferring := by
  cases s.state <;> simp

theorem rxByte_of_waitingAddress {s : State} (h : s.state = .waitingAddress) (b : Byte) :
    rxByte b s = .next (openTransaction b s) := by
  rcases rxByte_cases b s with ⟨hs, -⟩ | ⟨-, u, rfl, he⟩ | ⟨hs, -⟩ | ⟨hs, -⟩
  · simp [h] at hs
  · exact he
  · simp [h] at hs
  · simp [h] at hs

theorem rxByte_of_transferring {s : State} {d : Buffers} (h : s.state = .transferring)
    (hd : s.bufs = some d) (b : Byte) : rxByte b s = .next (receiveData d [b] s) := by
  rcases rxByte_cases b s with ⟨hs, -⟩ | ⟨hs, -⟩ | ⟨-, d', hd', he⟩ | ⟨-, hn, -⟩
  · simp [h] at hs
  · simp [h] at hs
  · obtain rfl : d = d' := Option.some.inj (hd.symm.trans hd')
    exact he
  · simp [hd] at hn

theorem rxByte_of_noBuffers {s : State} (h : s.state = .transferring) (hd : s.bufs = none) (b : Byte) :
    rxByte b s = .fault .noBuffers := by
  rcases rxByte_cases b s with ⟨hs, -⟩ | ⟨hs, -⟩ | ⟨-, d, hd', -⟩ | ⟨-, -, he⟩
  · simp [h] at hs
  · simp [h] at hs
  · simp [hd] at hd'
  · exact he

/-- A change of a part of the state that a received byte neither reads nor writes may be made after it. -/
theorem rxByte_commutes {change : State → State} (hst : ∀ s, (change s).state = s.state)
    (hbufs : ∀ s, (change s).bufs = s.bufs)
    (hopen : ∀ b s, openTransaction b (change s) = change (openTransaction b s))
    (hdata : ∀ d q s, receiveData d q (change s) = change (receiveData d q s)) (b : Byte) (s : State) :
    rxByte b (change s) = mapNext change (rxByte b s) := by
  rcases state_cases s with hs | hs | hs
  · rw [rxByte_of_inactive hs, rxByte_of_inactive ((hst s).trans hs)]
    rfl
  · rw [rxByte_of_waitingAddress hs, rxByte_of_waitingAddress ((hst s).trans hs), hopen]
    rfl
  · rcases Option.eq_none_or_eq_some s.bufs with hd | ⟨d, hd⟩
    · rw [rxByte_of_noBuffers hs hd, rxByte_of_noBuffers ((hst s).trans hs) ((hbufs s).trans hd)]
      rfl
    · rw [rxByte_of_transferring hs hd, rxByte_of_transferring ((hst s).trans hs) ((hbufs s).trans hd),
        hdata]
      rfl

/-- Changing the receive queue changes nothing else of what a received byte does. -/
theorem rxByte_setRxq (b : Byte) (s : State) (q : List Byte) :
    rxByte b { s with rxq := q } = mapNext (fun t => { t with rxq := q }) (rxByte b s) :=
  rxByte_commutes (change := fun t => { t with rxq := q }) (fun _ => rfl) (fun _ => rfl)
    (fun _ _ => rfl) (fun _ _ _ => rfl) b s

/-! ## A whole PUMP -/

/-- In `Transferring` PUMP handles every waiting byte as data (R86, R90). -/
theorem execPump_of_transferring {s : State} {d : Buffers} (h : s.state = .transferring)
    (hd : s.bufs = some d) : execPump s = .next { receiveData d s.rxq s with rxq := [] } := by
  generalize hq : s.rxq = q
  induction q generalizing s with
  | nil => rw [execPump_nil hq, receiveData_nil, ← hq]
  | cons b q ih =>
    rw [execPump_cons hq, rxByte_of_transferring (d := d) (by exact h) (by exact hd), andThen_next,
      ih (by exact h) (by exact hd) rfl, receiveData_cons]
    rfl

/-- In `WaitingAddress` PUMP handles the oldest byte as the address and the rest as data. -/
theorem execPump_of_waitingAddress {s : State} {b : Byte} {q : List Byte} (h : s.state = .waitingAddress)
    (hq : s.rxq = b :: q) :
    execPump s = .next { receiveData (descriptorOf (answerOf s (addressOperand b)).1) q
      (openTransaction b s) with rxq := [] } := by
  rw [execPump_cons hq, rxByte_of_waitingAddress (by exact h), andThen_next,
    execPump_of_transferring rfl rfl]
  rfl

/-- Without buffers PUMP stops at the first byte (R7); no run reaches this (R24). -/
theorem execPump_of_noBuffers {s : State} (h : s.state = .transferring) (hd : s.bufs = none)
    (hq : s.rxq ≠ []) : execPump s = .fault .noBuffers := by
  obtain ⟨b, q, hq⟩ := List.exists_cons_of_ne_nil hq
  rw [execPump_cons hq, rxByte_of_noBuffers (by exact h) (by exact hd), andThen_fault]

/-- Everything a PUMP that completes can do. -/
theorem execPump_eq_next {s t : State} (h : execPump s = .next t) :
    (s.rxq = [] ∧ t = s) ∨
    (s.state = .inactive ∧ t = { s with rxq := [] }) ∨
    (s.state = .waitingAddress ∧ ∃ b q, s.rxq = b :: q ∧
      t = { receiveData (descriptorOf (answerOf s (addressOperand b)).1) q (openTransaction b s) with
        rxq := [] }) ∨
    (s.state = .transferring ∧ ∃ d, s.bufs = some d ∧ t = { receiveData d s.rxq s with rxq := [] }) := by
  by_cases hq : s.rxq = []
  · rw [execPump_nil hq] at h
    cases h
    exact .inl ⟨hq, rfl⟩
  rcases state_cases s with hs | hs | hs
  · rw [execPump_of_inactive hs] at h
    cases h
    exact .inr (.inl ⟨hs, rfl⟩)
  · obtain ⟨b, q, hq⟩ := List.exists_cons_of_ne_nil hq
    rw [execPump_of_waitingAddress hs hq] at h
    cases h
    exact .inr (.inr (.inl ⟨hs, b, q, hq, rfl⟩))
  · rcases Option.eq_none_or_eq_some s.bufs with hd | ⟨d, hd⟩
    · rw [execPump_of_noBuffers hs hd hq] at h
      cases h
    · rw [execPump_of_transferring hs hd] at h
      cases h
      exact .inr (.inr (.inr ⟨hs, d, hd, rfl⟩))

/-! ## The stored bytes -/

/-- Storing data bytes keeps the canonical form. -/
theorem storeBytes_wf (d : Buffers) (first : Nat) (q : List Byte) {mem : Memory} (h : mem.wf) :
    (storeBytes d first q mem).wf := by
  induction q generalizing first mem with
  | nil => exact h
  | cons b q ih =>
    refine ih (first + 1) ?_
    split
    · exact Memory.write_wf h _ _
    · exact h

/-- Storing data bytes leaves every address alone that is none of theirs (R45). -/
theorem read_storeBytes_other {d : Buffers} {first a : Nat} {q : List Byte} (mem : Memory)
    (h : ∀ i, i < q.length → first + i < d.rxLen → a ≠ d.rxBase + (first + i)) :
    Memory.read (storeBytes d first q mem) a = Memory.read mem a := by
  induction q generalizing first mem with
  | nil => rfl
  | cons b q ih =>
    have hrest : ∀ i, i < q.length → first + 1 + i < d.rxLen → a ≠ d.rxBase + (first + 1 + i) := by
      intro i hi hr
      have := h (i + 1) (by simpa using hi) (by omega)
      omega
    rw [storeBytes, ih _ hrest]
    split
    · next hr => exact Memory.read_write_other _ _ (h 0 (by simp) hr)
    · rfl

/-- Each stored byte in range is read back at its place (R90, R96). -/
theorem read_storeBytes {d : Buffers} {first i : Nat} {q : List Byte} {mem : Memory} (hm : mem.wf)
    (hi : i < q.length) (hr : first + i < d.rxLen) :
    Memory.read (storeBytes d first q mem) (d.rxBase + (first + i)) = q[i] := by
  induction q generalizing first i mem with
  | nil => simp at hi
  | cons b q ih =>
    rw [storeBytes]
    cases i with
    | zero =>
      rw [read_storeBytes_other _ (by omega), if_pos (by omega)]
      exact Memory.read_write_same hm _ _
    | succ i =>
      have hm' : (if first < d.rxLen then Memory.write mem (d.rxBase + first) b else mem).wf := by
        split
        · exact Memory.write_wf hm _ _
        · exact hm
      have := ih (first := first + 1) hm' (by simpa using hi) (by omega)
      rwa [show first + (i + 1) = first + 1 + i by omega]

/-! ## The statements -/

/-- Settles O19: the operation is the `WaitingAddress` case of what a received byte can do. -/
theorem rxAddrOpensTransaction : Obligations.RxAddrOpensTransaction :=
  fun _ b hs => (exec_rxAddr_eq_rxByte hs b).trans (rxByte_of_waitingAddress hs b)

/-- Settles O21: of the one write, what it is read as and what it leaves alone. -/
theorem rxDataWritesOneByteInBounds : Obligations.RxDataWritesOneByteInBounds := by
  intro s t b d hm hd h
  obtain ⟨hs, -⟩ := requireState_eq_next.1 h
  rw [exec_rxData_eq_rxByte hs, rxByte_of_transferring hs hd] at h
  cases h
  refine ⟨fun hr => ?_, fun a ha => ?_⟩
  · exact read_storeBytes (q := [b]) (i := 0) hm (by simp) hr
  · refine read_storeBytes_other (q := [b]) _ fun i hi hr => ?_
    obtain rfl : i = 0 := by simpa using hi
    exact ha hr

/-- Settles O23. -/
theorem pumpWithNothingReceivedDoesNothing : Obligations.PumpWithNothingReceivedDoesNothing :=
  fun _ hq => execPump_nil hq

/-- Settles O25: the first round of the loop, with the operation of the state as it is then. -/
theorem pumpTakesOldestByteFirst : Obligations.PumpTakesOldestByteFirst := by
  intro s b q hq
  refine (execPump_cons hq).trans ?_
  rw [rxByte]
  cases s.state <;> rfl

/-- Settles O26: the closed form of PUMP in each state; where nothing waits it changes nothing. -/
theorem pumpDrainsEveryByte : Obligations.PumpDrainsEveryByte := by
  intro s hbufs
  rcases state_cases s with hs | hs | hs
  · refine ⟨_, execPump_of_inactive hs, rfl, by simp, by simp [hs], by simp [hs], ?_⟩
    repeat' constructor
  · cases hq : s.rxq with
    | nil => exact ⟨s, execPump_nil hq, hq, by simp [hs], by simp, by simp [hs], by simp⟩
    | cons b q =>
      refine ⟨_, execPump_of_waitingAddress hs hq, rfl, by simp [hs], fun _ b' q' h => ?_, by simp [hs],
        ?_⟩
      · cases h
        exact ⟨rfl, rfl, rfl⟩
      · repeat' constructor
  · obtain ⟨d, hd⟩ := Option.isSome_iff_exists.1 (hbufs hs)
    refine ⟨_, execPump_of_transferring hs hd, rfl, by simp [hs], by simp [hs],
      fun _ => ⟨hs, rfl, rfl, rfl⟩, ?_⟩
    repeat' constructor

/-- PUMP over two batches, by induction on the first: what a byte does is independent of what waits behind
it. -/
theorem execPump_append (s : State) (q1 q2 : List Byte) :
    execPump { s with rxq := q1 ++ q2 } =
      andThen (execPump { s with rxq := q1 }) (fun t => execPump { t with rxq := t.rxq ++ q2 }) := by
  induction q1 generalizing s with
  | nil =>
    rw [execPump_nil (s := { s with rxq := [] }) rfl]
    rfl
  | cons b q1 ih =>
    rw [execPump_cons (s := { s with rxq := b :: q1 }) rfl,
      execPump_cons (s := { s with rxq := (b :: q1) ++ q2 }) rfl, andThen_assoc]
    have h1 := rxByte_setRxq b s q1
    have h2 := rxByte_setRxq b s (q1 ++ q2)
    refine (congrArg (andThen · execPump) h2).trans (.trans ?_ (congrArg (andThen · _) h1).symm)
    cases rxByte b s with
    | next t => exact ih t
    | fault r => rfl
    | refused r => rfl

/-- Settles O27. -/
theorem pumpSplits : Obligations.PumpSplits := by
  intro s q1 q2 hq
  have h := execPump_append s q1 q2
  rwa [← hq] at h

/-- Settles O28: the closed form of PUMP, and what its stores leave in memory. -/
theorem pumpStoresInOrderAndPrimesTheStream : Obligations.PumpStoresInOrderAndPrimesTheStream := by
  intro s t d hm hs hd h
  have he : execPump s = .next t := h
  rw [execPump_of_transferring hs hd] at he
  cases he
  refine ⟨fun i hi hr => read_storeBytes hm hi hr, fun a ha => read_storeBytes_other _ ha, rfl,
    Nat.le_add_right _ _, ?_⟩
  rw [show (receiveData d s.rxq s).txCount - s.txCount = primedBy s.rxq s from Nat.add_sub_cancel_left ..]
  rfl

end Sys2Proof.Machine
end

section
/-! PROOFS. Encoding (30_encoding.md), and what a step takes from the schedule (60_exceptions.md,
40_select_edge.md section 1). -/

namespace Sys2Proof.Machine

/-! ## The dispatch word -/

theorem decode_dispatchByte (e : BitVec 4) (st : BitVec 2) (ops : List Byte) :
    decode .event (dispatchByte e st :: ops) = decodeWord (dispatchWord e st) ops := by
  have hbyte : ∀ (e : BitVec 4) (st : BitVec 2),
      (dispatchByte e st).toNat < 64 ∧ (dispatchByte e st).setWidth 6 = dispatchWord e st := by decide
  obtain ⟨hlt, hw⟩ := hbyte e st
  rw [decode, decodeEvent, if_pos hlt, hw]

/-- A dispatch word in no row is refused by its name (R59). -/
theorem decodeWord_of_find_none {w : BitVec 6}
    (h : rows.find? (fun r => w &&& r.mask = r.value) = none) (ops : List Byte) :
    decodeWord w ops = .error (reservedName w) := by
  simp only [decodeWord, h]

/-- The operation a select edge selects in a state (R58). -/
def selectOp : SelEdge → TransactionState → Instr
  | .fall, .inactive => .selAssert
  | .fall, .waitingAddress => .selReassertW
  | .fall, .transferring => .selReassertT
  | .rise, .inactive => .selDeassertI
  | .rise, .waitingAddress => .selDeassertW
  | .rise, .transferring => .selDeassertT

theorem decode_select (e : SelEdge) (st : TransactionState) (ops : List Byte) :
    decode .event (dispatchByte e.event.code st.code :: ops) = .ok (selectOp e st, ops) := by
  cases e <;> cases st <;> rfl

theorem decode_pump (st : TransactionState) (ops : List Byte) :
    decode .event (dispatchByte Event.pump.code st.code :: ops) = .ok (.pump, ops) := by
  cases st <;> rfl

theorem decode_tick (st : TransactionState) (ops : List Byte) :
    decode .event (dispatchByte Event.tick.code st.code :: ops) = .ok (.diagTick, ops) := by
  cases st <;> rfl

theorem decode_construct (st : TransactionState) (ops : List Byte) :
    decode .event (dispatchByte Event.construct.code st.code :: ops) = constructOperands ops := by
  cases st <;> rfl

theorem decode_reinit (st : TransactionState) (ops : List Byte) :
    decode .event (dispatchByte Event.reinit.code st.code :: ops) = .ok (.pReinit, ops) := by
  cases st <;> rfl

/-! ## Encoding -/

theorem toNat_idByte {n : Nat} (h : fitsByte n = true) : (idByte n).toNat = n :=
  Nat.mod_eq_of_lt (of_decide_eq_true h)

/-- The operand bytes of CONSTRUCT are read back (log 12). -/
theorem constructOperands_encode {n : Binding} {f g : Nat} (hn : n.wf = true) (hf : fitsByte f = true)
    (hg : fitsByte g = true) (rest : List Byte) :
    constructOperands (idByte n.selN :: idByte n.sclk :: idByte n.sdi :: idByte n.sdo :: idByte n.diag ::
      idByte f :: idByte g :: rest) = .ok (.construct n f g, rest) := by
  simp only [Binding.wf, Bool.and_eq_true] at hn
  obtain ⟨⟨⟨⟨h1, h2⟩, h3⟩, h4⟩, h5⟩ := hn
  simp only [constructOperands, toNat_idByte, h1, h2, h3, h4, h5, hf, hg]

/-- Settles O4: each encoding begins with a word of the instruction's row, whose operands are the rest;
only CONSTRUCT's operands need the well-formedness. -/
theorem decodeInvertsEncode : Obligations.DecodeInvertsEncode := by
  refine ⟨fun i rest hwf => ?_, fun n d rest hn => ?_⟩
  · cases i with
    | construct n f g =>
      simp only [Instr.wf, Bool.and_eq_true] at hwf
      obtain ⟨⟨hn, hf⟩, hg⟩ := hwf
      exact constructOperands_encode hn hf hg rest
    | selAssert | selReassertW | selReassertT | selDeassertI | selDeassertW | selDeassertT => rfl
    | rxDiscard b | rxAddr b | rxData b => rfl
    | txPrime | pump | diagTick | cbStart | cbEnd | pReinit => rfl
    | wireAddr b | wireData b => rfl
  · simp [decode, encode, decodeWire, Nat.ne_of_gt hn]

/-- Settles O5: each dispatch word finds its row. -/
theorem dispatchMapSelectsOperation : Obligations.DispatchMapSelectsOperation := by
  intro b p c i o d f g ops st
  refine ⟨decode_select .fall .inactive ops, decode_select .fall .waitingAddress ops,
    decode_select .fall .transferring ops, decode_select .rise .inactive ops,
    decode_select .rise .waitingAddress ops, decode_select .rise .transferring ops, rfl, rfl, rfl, rfl,
    decode_pump st ops, decode_tick st ops, decode_construct st _, rfl, rfl, decode_reinit st ops⟩

/-- Settles O6: none of these words finds a row, and the name of each is read from its bits. -/
theorem reservedDispatchWordsAreRefused : Obligations.ReservedDispatchWordsAreRefused := by
  have hword : ∀ (e : BitVec 4) (st : BitVec 2),
      (10 ≤ e.toNat → rows.find? (fun r => dispatchWord e st &&& r.mask = r.value) = none ∧
        reservedName (dispatchWord e st) = .reservedEvent e) ∧
      (e ∈ [0x0#4, 0x1#4, 0x2#4, 0x3#4, 0x7#4, 0x8#4] →
        rows.find? (fun r => dispatchWord e 0b11 &&& r.mask = r.value) = none ∧
        reservedName (dispatchWord e 0b11) = .reservedState e) ∧
      ((e, st) ∈ [(0x3#4, 0b00#2), (0x3#4, 0b01#2), (0x7#4, 0b00#2), (0x7#4, 0b10#2),
          (0x8#4, 0b00#2), (0x8#4, 0b01#2)] →
        rows.find? (fun r => dispatchWord e st &&& r.mask = r.value) = none ∧
        reservedName (dispatchWord e st) = .noSuchOperation e st) := by
    decide
  intro e st ops
  obtain ⟨hevent, hstate, hnone⟩ := hword e st
  simp only [decode_dispatchByte]
  refine ⟨fun h => ?_, fun h => ?_, fun h => ?_⟩
  · obtain ⟨hf, hr⟩ := hevent h
    rw [decodeWord_of_find_none hf, hr]
  · obtain ⟨hf, hr⟩ := hstate h
    rw [decodeWord_of_find_none hf, hr]
  · obtain ⟨hf, hr⟩ := hnone h
    rw [decodeWord_of_find_none hf, hr]

/-- Settles O7: each of these words is closed, and the decoder is evaluated on it. -/
theorem specWordsDecode : Obligations.SpecWordsDecode :=
  ⟨rfl, rfl, rfl, rfl, rfl, rfl, rfl, rfl, rfl, rfl⟩

/-- Settles O8. -/
theorem wordBitsAssembleToTheWord : Obligations.WordBitsAssembleToTheWord :=
  ⟨assemble_bitsOf, rfl, rfl⟩

/-! ## Dispatch and service -/

theorem dispatch_of_decode {code : BitVec 4} {ops r : List Byte} {s : State} {i : Instr}
    (h : decode .event (dispatchByte code s.state.code :: ops) = .ok (i, r)) :
    dispatch code ops s = exec i s := by
  simp only [dispatch, h]

theorem dispatch_of_decode_error {code : BitVec 4} {ops : List Byte} {s : State} {e : DecodeError}
    (h : decode .event (dispatchByte code s.state.code :: ops) = .error e) :
    dispatch code ops s = .refused (.reservedWord e) := by
  simp only [dispatch, h]

theorem dispatch_select (e : SelEdge) (ops : List Byte) (s : State) :
    dispatch e.event.code ops s = exec (selectOp e s.state) s :=
  dispatch_of_decode (decode_select e s.state ops)

theorem dispatch_pump (ops : List Byte) (s : State) : dispatch Event.pump.code ops s = execPump s :=
  dispatch_of_decode (decode_pump s.state ops)

theorem dispatch_tick (ops : List Byte) (s : State) :
    dispatch Event.tick.code ops s = .next { s with diag := true } :=
  dispatch_of_decode (decode_tick s.state ops)

/-- The internal events by their codes (R56). -/
theorem internalEvent_iff (code : BitVec 4) :
    internalEvent code = true ↔ code ∈ [0x2#4, 0x3#4, 0x7#4, 0x8#4, 0x9#4] := by
  revert code
  decide

theorem internalEvent_eq_false_iff (code : BitVec 4) :
    internalEvent code = false ↔ code ∉ [0x2#4, 0x3#4, 0x7#4, 0x8#4, 0x9#4] := by
  rw [← internalEvent_iff, Bool.not_eq_true]

/-- The oldest posted edge is consumed by the operation it selects (R146). -/
theorem serviceSelect_posted {s : State} {e : SelEdge} {p : List SelEdge} (h : s.irqEnabled = true)
    (hp : s.pendingSel = e :: p) :
    serviceSelect s = exec (selectOp e s.state) { s with pendingSel := p } := by
  unfold serviceSelect
  split
  · next e' p' _ hp' =>
    obtain ⟨rfl, rfl⟩ := List.cons.inj (hp.symm.trans hp')
    exact dispatch_select e [] { s with pendingSel := p }
  · next hn => exact absurd hp (hn e p h)

theorem serviceSelect_none {s : State} (h : s.pendingSel = []) : serviceSelect s = .next s := by
  simp [serviceSelect, h]

theorem serviceSelect_disabled {s : State} (h : s.irqEnabled = false) : serviceSelect s = .next s := by
  simp [serviceSelect, h]

theorem servicePump_enabled {s : State} (h : s.irqEnabled = true) : servicePump s = execPump s := by
  rw [servicePump, if_pos h, dispatch_pump]

theorem servicePump_disabled {s : State} (h : s.irqEnabled = false) : servicePump s = .next s := by
  simp [servicePump, h]

/-- Settles O9: a step dispatches the event, which is exec of what it decodes to. -/
theorem stepRunsTheDispatchedEvent : Obligations.StepRunsTheDispatchedEvent := by
  intro s code ops more
  refine ⟨fun hi hin => ⟨fun hc hb => ?_, fun hc hb hn => ?_, fun hc => ?_⟩, fun hi => ?_⟩
  · rw [step_input hi hin, runInput,
      presentEvent_external ((internalEvent_eq_false_iff code).2 hc) (by exact hb)]
    exact ⟨fun i r h => dispatch_of_decode h, fun e h => dispatch_of_decode_error h⟩
  · rw [step_input hi hin]
    exact presentEvent_noEngine (s := { s with inputs := more })
      ((internalEvent_eq_false_iff code).2 hc) hb hn ops
  · rw [step_input hi hin]
    exact presentEvent_internal ((internalEvent_iff code).2 hc) ops _
  · rw [step_inner hi]
    exact ⟨fun i r h => dispatch_of_decode h, fun e h => dispatch_of_decode_error h⟩

/-- Settles O10: what servicing each source runs, and that it runs nothing where there is nothing to run. -/
theorem stepServicesInterrupts : Obligations.StepServicesInterrupts := by
  intro s more e p i r hi
  refine ⟨fun hin hirq hp hd => ?_, fun hin hirq => ?_, fun hin hp => ?_, fun source hin hirq => ?_⟩
  · rw [decode_select] at hd
    cases hd
    rw [step_input hi hin]
    exact serviceSelect_posted hirq hp
  · rw [step_input hi hin]
    exact servicePump_enabled hirq
  · rw [step_input hi hin]
    exact serviceSelect_none hp
  · rw [step_input hi hin]
    cases source with
    | selectEdge => exact serviceSelect_disabled hirq
    | byteReady => exact servicePump_disabled hirq

/-! ## The wire and the select line -/

/-- In a select cycle a clocked word is the wire byte of its frame index (R53). -/
theorem clockInput_low {s : State} (h : s.selN = false) (m : Byte) :
    clockInput m s = exec (decodeWire s.frameIdx m) s := by
  simp [clockInput, h]

theorem clockInput_high {s : State} (h : s.selN = true) (m : Byte) : clockInput m s = clockWord m s :=
  if_pos h

/-- Settles O11. -/
theorem stepClocksWords : Obligations.StepClocksWords := by
  intro s m b more hi
  refine ⟨fun hin hl hf => ?_, fun hin hl hf => ?_, fun hin hl => ?_, fun hin => ?_, step_idle hi⟩
  · rw [step_input hi hin, runInput, clockInput_low (by exact hl)]
    simp only [decodeWire, hf, if_true]
  · rw [step_input hi hin, runInput, clockInput_low (by exact hl)]
    simp only [decodeWire, Nat.ne_of_gt hf, if_false]
  · rw [step_input hi hin]
    exact clockInput_high (s := { s with inputs := more }) hl m
  · rw [step_input hi hin]
    rfl

/-- A sample of an unchanged level changes nothing (R70). -/
theorem driveSelect_same {s : State} {level : Bool} (hq : s.selQ = level) (hn : s.selN = level) :
    driveSelect level s = s := by
  have hedge : (if s.constructed then edgeOf s.selQ level else []) = [] := by
    rw [hq]
    cases s.constructed <;> cases level <;> rfl
  have hframe : (s.selN && !level) = false := by
    rw [hn, Bool.and_not_self]
  rw [driveSelect, hedge, hframe, List.append_nil, if_pos hn, if_pos hn]
  cases s
  dsimp only at hq hn
  subst hq hn
  rfl

/-- The falling edge (R70, R53, log 32). -/
theorem driveSelect_fall {s : State} (hc : s.constructed = true) (hq : s.selQ = true)
    (hn : s.selN = true) :
    driveSelect false s = { s with
      selN := false, selQ := false, frameIdx := 0, shift := none,
      residue := s.residue ++ s.shift.toList, pendingSel := s.pendingSel ++ [.fall] } := by
  simp [driveSelect, edgeOf, hc, hq, hn]

/-- The rising edge (R70, log 32). -/
theorem driveSelect_rise {s : State} (hc : s.constructed = true) (hq : s.selQ = false)
    (hn : s.selN = false) :
    driveSelect true s = { s with
      selN := true, selQ := true, shift := none,
      residue := s.residue ++ s.shift.toList, pendingSel := s.pendingSel ++ [.rise] } := by
  simp [driveSelect, edgeOf, hc, hq, hn]

/-- Settles O12: the sample of each edge, of an unchanged level, and before construction. -/
theorem selectDetectorPostsEdges : Obligations.SelectDetectorPostsEdges := by
  intro s level more hi hin hqn
  rw [step_input hi hin, runInput]
  refine ⟨?_, ?_, fun hq => ?_, fun hc => ⟨_, rfl, rfl, rfl, by simp [hc], hc⟩⟩
  · rintro hc hq rfl
    rw [driveSelect_fall (by exact hc) (by exact hq) (by exact hqn.symm.trans hq)]
  · rintro hc hq rfl
    rw [driveSelect_rise (by exact hc) (by exact hq) (by exact hqn.symm.trans hq)]
  · rw [driveSelect_same (by exact hq) (by exact hqn.symm.trans hq)]

end Sys2Proof.Machine
end

section
/-! PROOFS. The peripheral and the wire (43_peripheral_port.md). -/

namespace Sys2Proof.Machine

/-! ## One clock period -/

/-- The bit in clock period `k` of a byte's word (R51). -/
theorem bitAt_of_lt (b : Byte) {k : Nat} (h : k < 8) : bitAt b k = b.getLsbD (7 - k) := by
  simp [bitAt, BitVec.getMsbD, h]

/-- A word's bits in clock order (R51). -/
theorem bitsOf_eq (b : Byte) : bitsOf b = (List.range 8).map (fun k => b.getLsbD (7 - k)) := rfl

/-- A clock period that leaves its word unfinished (R139). -/
theorem clockBit_of_short {s : State} {w : PartialWord} (h : s.shift = some w)
    (hl : w.sampled.length < 7) (b : Bool) :
    clockBit b s = .next { s with
      shift := some ⟨w.sampled ++ [b], w.sending⟩
      wire := s.wire ++ clockPeriod b (w.sending.getLsbD (7 - w.sampled.length)) } := by
  have hl' : w.sampled.length + 1 < 8 := by omega
  simp [clockBit, wordInShifter, h, hl', bitAt_of_lt _ (Nat.lt_of_succ_lt hl')]

/-- The clock period that ends a word, or finds no room for its byte (R134, R136). -/
theorem clockBit_of_last {s : State} {w : PartialWord} (h : s.shift = some w)
    (hl : w.sampled.length = 7) (b : Bool) :
    clockBit b s =
      if s.rxq.length < s.cfg.rxDepth then
        .next { s with
          shift := none
          wire := s.wire ++ clockPeriod b (w.sending.getLsbD (7 - w.sampled.length))
          rxq := s.rxq ++ [assemble (w.sampled ++ [b])]
          frameIdx := if s.selN then s.frameIdx else s.frameIdx + 1
          trace := s.trace ++ [.word (assemble (w.sampled ++ [b])) w.sending] }
      else .fault .rxOverrun := by
  simp [clockBit, wordInShifter, h, hl, endWord, rxRoom, bitAt_of_lt]

/-- The first clock period of a word takes the byte to send, a free one where there is none (R134, R135). -/
theorem clockBit_of_none {s : State} (h : s.shift = none) (b : Bool) :
    clockBit b s = .next { s with
      txq := s.txq.tail
      draws := if s.txq = [] then s.draws + 1 else s.draws
      shift := some ⟨[b], s.txq.headD (Config.underrunByte s.draws)⟩
      wire := s.wire ++ clockPeriod b ((s.txq.headD (Config.underrunByte s.draws)).getLsbD 7) } := by
  cases hq : s.txq <;> simp [clockBit, wordInShifter, h, hq, bitAt_of_lt]

/-- Only an overrun stops a clock period (R136). -/
theorem clockBit_eq_fault {b : Bool} {s : State} {r : Fault} (h : clockBit b s = .fault r) :
    r = .rxOverrun := by
  simp only [clockBit, endWord] at h
  split at h
  · cases h
  · split at h
    · cases h
    · cases h
      rfl

theorem clockBits_eq_fault {bits : List Bool} {s : State} {r : Fault} (h : clockBits bits s = .fault r) :
    r = .rxOverrun := by
  induction bits generalizing s with
  | nil => cases h
  | cons b bits ih =>
    rcases andThen_eq_fault.1 h with h | ⟨u, -, h⟩
    · exact clockBit_eq_fault h
    · exact ih h

/-! ## Fewer than eight clock periods -/

/-- Clock periods that do not finish the word in the shifter join it, and nothing else changes but the
lines (R139). -/
theorem clockBits_of_short {s : State} {pre bits : List Bool} {v : Byte} (h : s.shift = some ⟨pre, v⟩)
    (hl : pre.length + bits.length < 8) :
    clockBits bits s = .next { s with
      shift := some ⟨pre ++ bits, v⟩
      wire := s.wire ++
        (bits.mapIdx (fun k b => clockPeriod b (v.getLsbD (7 - (pre.length + k))))).flatten } := by
  induction bits generalizing s pre with
  | nil => simp [clockBits, ← h]
  | cons b bits ih =>
    rw [List.length_cons] at hl
    have hpre : pre.length < 7 := by omega
    have hrest : (pre ++ [b]).length + bits.length < 8 := by
      rw [List.length_append, List.length_singleton]
      omega
    rw [clockBits, clockBit_of_short h hpre, andThen_next, ih rfl hrest]
    simp [List.mapIdx_cons, Nat.add_assoc, Nat.add_comm 1]

/-- Settles O39: the first period takes the byte to send, the others join its word. -/
theorem partialWordIsNeverReceived : Obligations.PartialWordIsNeverReceived := by
  intro s bits h hl
  refine ⟨?_, rfl⟩
  cases bits with
  | nil => rfl
  | cons b bits =>
    rw [List.length_cons] at hl
    rw [clockBits, clockBit_of_none h, andThen_next,
      clockBits_of_short rfl (by rw [List.length_singleton]; omega)]
    simp [List.mapIdx_cons, clockPeriod, Nat.add_comm 1]

/-! ## Whole words -/

/-- The lines during a word, clock period by clock period (R51, R139). -/
theorem word_lines (m v : Byte) :
    (List.range 8).flatMap (fun k => clockPeriod (bitAt m k) (bitAt v k)) =
      (List.range 8).flatMap (fun k =>
        [⟨false, m.getLsbD (7 - k), v.getLsbD (7 - k)⟩, ⟨true, m.getLsbD (7 - k), v.getLsbD (7 - k)⟩]) :=
  rfl

/-- A word from between words with a byte to send (R134). -/
theorem clockWord_of_cons {s : State} {v : Byte} {q : List Byte} (h : s.shift = none)
    (hq : s.txq = v :: q) (hr : s.rxq.length < s.cfg.rxDepth) (m : Byte) :
    clockWord m s = .next { s with
      txq := q
      wire := s.wire ++ (List.range 8).flatMap (fun k => clockPeriod (bitAt m k) (bitAt v k))
      rxq := s.rxq ++ [m]
      frameIdx := if s.selN then s.frameIdx else s.frameIdx + 1
      trace := s.trace ++ [.word m v] } := by
  have hw : wordInShifter s = (⟨[], v⟩, { s with txq := q }) := by simp [wordInShifter, h, hq]
  rw [clockWord_eq h hw, if_pos hr]
  simp only [h]

/-- A word from between words with nothing to send: an underrun draw (R135). -/
theorem clockWord_of_nil {s : State} (h : s.shift = none) (hq : s.txq = [])
    (hr : s.rxq.length < s.cfg.rxDepth) (m : Byte) :
    clockWord m s = .next { s with
      draws := s.draws + 1
      wire := s.wire ++ (List.range 8).flatMap (fun k =>
        clockPeriod (bitAt m k) (bitAt (Config.underrunByte s.draws) k))
      rxq := s.rxq ++ [m]
      frameIdx := if s.selN then s.frameIdx else s.frameIdx + 1
      trace := s.trace ++ [.word m (Config.underrunByte s.draws)] } := by
  have hw : wordInShifter s = (⟨[], Config.underrunByte s.draws⟩, { s with draws := s.draws + 1 }) := by
    simp [wordInShifter, h, hq]
  rw [clockWord_eq h hw, if_pos hr]
  simp only [h]

/-- A word from between words with the receive queue full (R136). -/
theorem clockWord_of_full {s : State} (h : s.shift = none) (hr : s.cfg.rxDepth ≤ s.rxq.length)
    (m : Byte) : clockWord m s = .fault .rxOverrun := by
  rw [clockWord_eq h (Prod.mk.eta (p := wordInShifter s)).symm, if_neg (Nat.not_lt.2 hr)]

/-- A clocked word is the same word in a select cycle and outside one (R134, R140). -/
theorem clockInput_eq_clockWord (m : Byte) (s : State) : clockInput m s = clockWord m s := by
  unfold clockInput decodeWire
  split
  · rfl
  · split <;> rfl

/-- From between words a whole word is received as it is, where there is room. -/
theorem clockWord_receives {s : State} (h : s.shift = none) (hr : s.rxq.length < s.cfg.rxDepth)
    (m : Byte) : ∃ u, clockWord m s = .next u ∧ u.rxq = s.rxq ++ [m] := by
  cases hq : s.txq with
  | nil => exact ⟨_, clockWord_of_nil h hq hr m, rfl⟩
  | cons v q => exact ⟨_, clockWord_of_cons h hq hr m, rfl⟩

/-- Settles O36. -/
theorem wireByteExchangesOneWord : Obligations.WireByteExchangesOneWord := by
  intro s m v q h hq hr
  have hword := clockWord_of_cons h hq hr m
  rw [word_lines] at hword
  exact ⟨hword, hword⟩

/-- Settles O37. -/
theorem wireByteUnderrunSendsFreeByte : Obligations.WireByteUnderrunSendsFreeByte := by
  intro s m h hq hr
  have hword := clockWord_of_nil h hq hr m
  rw [word_lines] at hword
  exact ⟨hword, hword⟩

/-- Settles O40: a word is clock periods, which leave all these fields alone. -/
theorem clockingLeavesTheEngineAlone : Obligations.ClockingLeavesTheEngineAlone := by
  intro s t m h
  have hword : clockBits (bitsOf m) s = .next t := h.elim id id
  rw [clockBits_frame hword]
  simp [withShifter]

/-- Settles O54: the bits of a word that is finished are those of its byte, so they assemble to it. -/
theorem clockedBitIsOnePeriod : Obligations.ClockedBitIsOnePeriod := by
  intro s b w h
  refine ⟨fun hl => clockBit_of_short h hl b, fun m hm => ?_⟩
  have hl : w.sampled.length = 7 := by simpa using (congrArg List.length hm).symm
  have hbyte : assemble (w.sampled ++ [b]) = m := by rw [← hm, ← bitsOf_eq, assemble_bitsOf]
  refine ⟨fun hr => ?_, fun hr => ?_⟩
  · rw [clockBit_of_last h hl, if_pos hr, hbyte]
    rfl
  · rw [clockBit_of_last h hl, if_neg (Nat.not_lt.2 hr)]

/-! ## A word cut off by an edge -/

/-- Settles O55: the edge moves the word to the residue, and what follows starts between words. -/
theorem edgeCutsOffAPartialWord : Obligations.EdgeCutsOffAPartialWord := by
  intro s w level more hi hin hn h
  have hstep : step s = .next (driveSelect level { s with inputs := more }) := step_input hi hin
  have hshift : (driveSelect level { s with inputs := more }).shift = none := by simp [hn]
  refine ⟨_, hstep, hshift, by simp [hn, h], rfl, rfl, rfl, fun hr m => clockWord_receives hshift hr m,
    fun bits hl => ?_, _, rfl, rfl, rfl, rfl⟩
  obtain ⟨hbits, -⟩ := partialWordIsNeverReceived _ bits hshift hl
  refine ⟨_, hbits, ?_⟩
  split <;> exact ⟨rfl, rfl⟩

end Sys2Proof.Machine
end

section
/-! PROOFS. One operation at a time: the select edges (40_select_edge.md), the host handshake
(42_host_handshake.md) and P_REINIT in their states, and where an operation stops (60_exceptions.md). -/

namespace Sys2Proof.Machine

/-! ## The select edges -/

/-- Settles O13. -/
theorem selAssertArmsTheEngine : Obligations.SelAssertArmsTheEngine :=
  fun _ hs hf => exec_selAssert_eq_next.2 ⟨hs, hf, rfl⟩

/-- Settles O14. -/
theorem selReassertChangesNothing : Obligations.SelReassertChangesNothing :=
  ⟨fun _ hs => requireState_of hs _, fun _ hs => requireState_of hs _⟩

/-- Settles O15. -/
theorem selDeassertTFinalisesTransaction : Obligations.SelDeassertTFinalisesTransaction :=
  fun s a hs ha => exec_selDeassertT_eq_next.2 ⟨callEnd a s, exec_cbEnd_eq_next.2 ⟨hs, a, ha, rfl⟩, rfl⟩

/-- In `Inactive`, SEL_DEASSERT_I is a `P.reinit()` (R76, D5). -/
theorem exec_selDeassertI {s : State} (h : s.state = .inactive) :
    exec .selDeassertI s = .next (reinitPort { s with state := .inactive }) :=
  requireState_of h _

/-- Settles O17: the state written is the one the engine is in. -/
theorem selDeassertIOnlyReinitialises : Obligations.SelDeassertIOnlyReinitialises := by
  intro s hs
  rw [exec_selDeassertI hs, ← hs]
  rfl

/-! ## The host handshake -/

/-- Settles O29. -/
theorem cbStartTakesTheBuffers : Obligations.CbStartTakesTheBuffers :=
  fun _ a hs ha => exec_cbStart_eq_next.2 ⟨hs, a, ha, rfl⟩

/-- Settles O30: the first row that matches, the free answer where none does, and the loaded bytes. -/
theorem startAnswersAreReadBack : Obligations.StartAnswersAreReadBack := by
  refine ⟨fun s a w pre post hs hpre => ?_, fun s a hs => ?_, fun m base bytes hm => ⟨?_, ?_⟩⟩
  · rw [answerOf, hs, takeScripted_first w post hpre, Option.getD_some]
  · rw [answerOf, takeScripted_none hs, Option.getD_none]
  · exact Memory.read_load_inside hm base bytes
  · exact fun a ha => Memory.read_load_outside m base bytes ha

/-- Settles O31. -/
theorem cbEndReportsAddressAndCount : Obligations.CbEndReportsAddressAndCount :=
  fun _ a hs ha => exec_cbEnd_eq_next.2 ⟨hs, a, ha, rfl⟩

/-- Settles O32. -/
theorem constructBuildsTheEngine : Obligations.ConstructBuildsTheEngine :=
  fun _ _ _ _ hc hn => exec_construct_eq_next.2 ⟨hc, hn, rfl⟩

/-- Settles O34. -/
theorem diagTickRaisesIndicator : Obligations.DiagTickRaisesIndicator := fun _ => rfl

/-- Settles O35. -/
theorem reinitEmptiesThePeripheral : Obligations.ReinitEmptiesThePeripheral :=
  fun s => ⟨reinitPort s, rfl, rfl, rfl, rfl⟩

/-! ## Where an operation stops -/

/-- A received byte stops only where a transaction has no buffers (R7). -/
theorem rxByte_eq_fault {b : Byte} {s : State} {r : Fault} (h : rxByte b s = .fault r) :
    r = .noBuffers := by
  rcases rxByte_cases b s with ⟨-, he⟩ | ⟨-, u, -, he⟩ | ⟨-, d, -, he⟩ | ⟨-, -, he⟩ <;>
    rw [he] at h <;> cases h
  rfl

theorem execPump_eq_fault {s : State} {r : Fault} (h : execPump s = .fault r) : r = .noBuffers := by
  generalize hq : s.rxq = q
  induction q generalizing s with
  | nil =>
    rw [execPump_nil hq] at h
    cases h
  | cons b q ih =>
    rw [execPump_cons hq] at h
    rcases andThen_eq_fault.1 h with h | ⟨u, hu, h⟩
    · exact rxByte_eq_fault h
    · exact ih h (by rw [rxByte_frame hu]; rfl)

/-- CB_START stops only where `addr` holds none (R7). -/
theorem exec_cbStart_eq_fault {s : State} {r : Fault} (h : exec .cbStart s = .fault r) :
    r = .noAddress := by
  obtain ⟨-, h⟩ := requireState_eq_fault.1 h
  split at h <;> cases h
  rfl

theorem exec_cbEnd_eq_fault {s : State} {r : Fault} (h : exec .cbEnd s = .fault r) :
    r = .noAddress := by
  obtain ⟨-, h⟩ := requireState_eq_fault.1 h
  split at h <;> cases h
  rfl

/-- CONSTRUCT apart, no instruction raises `ConfigurationError` (R112). -/
theorem exec_ne_configurationError {i : Instr} {s : State} (hc : ∀ n f g, i ≠ .construct n f g) :
    exec i s ≠ .fault .configurationError := by
  intro h
  cases i with
  | construct n f g => exact hc n f g rfl
  | selAssert =>
    obtain ⟨-, h⟩ := requireState_eq_fault.1 h
    rcases andThen_eq_fault.1 h with h | ⟨u, -, h⟩
    · cases (txPush_eq_fault.1 h).2
    · cases h
  | selReassertW | selReassertT | selDeassertI | selDeassertW | rxDiscard b =>
    cases (requireState_eq_fault.1 h).2
  | selDeassertT =>
    obtain ⟨-, h⟩ := requireState_eq_fault.1 h
    rcases andThen_eq_fault.1 h with h | ⟨u, -, h⟩
    · cases exec_cbEnd_eq_fault h
    · cases h
  | rxAddr b =>
    obtain ⟨hs, -⟩ := requireState_eq_fault.1 h
    rw [exec_rxAddr_eq_rxByte hs] at h
    cases rxByte_eq_fault h
  | rxData b =>
    obtain ⟨hs, -⟩ := requireState_eq_fault.1 h
    rw [exec_rxData_eq_rxByte hs] at h
    cases rxByte_eq_fault h
  | txPrime =>
    obtain ⟨-, h⟩ := requireState_eq_fault.1 h
    split at h
    · cases h
    · rcases andThen_eq_fault.1 h with h | ⟨u, -, h⟩
      · cases (txPush_eq_fault.1 h).2
      · cases h
  | pump => cases execPump_eq_fault h
  | diagTick | pReinit => cases h
  | cbStart => cases exec_cbStart_eq_fault h
  | cbEnd => cases exec_cbEnd_eq_fault h
  | wireAddr b | wireData b => cases clockBits_eq_fault h

/-- CONSTRUCT aborts exactly where no engine exists and the binding does not resolve (R112). -/
theorem exec_construct_eq_fault {s : State} {n : Binding} {f g : Nat} {r : Fault} :
    exec (.construct n f g) s = .fault r ↔
      s.constructed = false ∧ n ∉ s.cfg.bindings ∧ r = .configurationError := by
  simp only [exec, execConstruct, raiseConfigurationError]
  by_cases hc : s.constructed = true
  · simp [hc]
  · by_cases hn : n ∈ s.cfg.bindings <;> simp [hc, hn, eq_comm]

/-- Settles O33. -/
theorem onlyUnresolvedConstructAborts : Obligations.OnlyUnresolvedConstructAborts := by
  refine ⟨fun s n f g hc hn => exec_construct_eq_fault.2 ⟨hc, hn, rfl⟩, fun s i h => ?_⟩
  by_cases hi : ∃ n f g, i = .construct n f g
  · obtain ⟨n, f, g, rfl⟩ := hi
    obtain ⟨hc, hn, -⟩ := exec_construct_eq_fault.1 h
    exact ⟨n, f, g, rfl, hn, hc⟩
  · push Not at hi
    exact absurd h (exec_ne_configurationError hi)

/-- Settles O38: the full receive queue at the end of a word, and a push with no free slot. -/
theorem contractViolationsFault : Obligations.ContractViolationsFault := by
  refine ⟨fun s m h hr => ⟨clockWord_of_full h hr m, clockWord_of_full h hr m⟩, fun s hs hf => ?_,
    fun s hs hd hf => ?_⟩
  · have hpush := txPush_of_full
      (s := { s with txCount := 0, rxCount := 0, state := .waitingAddress }) hf placeholder
    exact requireState_eq_fault.2 ⟨hs, andThen_eq_fault.2 (.inl hpush)⟩
  · obtain ⟨d, hd⟩ := Option.isSome_iff_exists.1 hd
    refine requireState_eq_fault.2 ⟨hs, ?_⟩
    rw [hd]
    exact andThen_eq_fault.2 (.inl (txPush_of_full hf _))

/-- Settles O41: each of these operations is its `require` line and a body. -/
theorem operationsBelongToTheirState : Obligations.OperationsBelongToTheirState := by
  refine fun s b => ⟨fun hs => ?_, fun hs => ?_, fun hs => ?_⟩ <;>
    simp only [List.forall_mem_cons, List.not_mem_nil, false_implies, implies_true, and_true]
  · exact ⟨requireState_not hs _, requireState_not hs _, requireState_not hs _⟩
  · exact ⟨requireState_not hs _, requireState_not hs _, requireState_not hs _, requireState_not hs _⟩
  · exact ⟨requireState_not hs _, requireState_not hs _, requireState_not hs _, requireState_not hs _,
      requireState_not hs _⟩

end Sys2Proof.Machine
end

section
/-! PROOFS. Everything an instruction that completes can do, said once, and the rules about every
instruction: how the state, the counters, the set-up, the memories and the trace may change. -/

namespace Sys2Proof.Machine

/-! ## Words in the trace -/

/-- Clock periods until the word in the shifter ends. -/
def periodsLeft (s : State) : Nat :=
  match s.shift with
  | none => 8
  | some w => 8 - min w.sampled.length 7

theorem periodsLeft_of_none {s : State} (h : s.shift = none) : periodsLeft s = 8 := by
  simp only [periodsLeft, h]

theorem periodsLeft_of_some {s : State} {w : PartialWord} (h : s.shift = some w) :
    periodsLeft s = 8 - min w.sampled.length 7 := by
  simp only [periodsLeft, h]

theorem periodsLeft_pos (s : State) : 0 < periodsLeft s := by
  unfold periodsLeft
  split <;> omega

/-- The word the shifter goes on with has as many bits missing as periods are left. -/
theorem periodsLeft_wordInShifter (s : State) :
    periodsLeft s = 8 - min (wordInShifter s).1.sampled.length 7 := by
  rcases wordInShifter_cases s with ⟨w, h, hw⟩ | ⟨h, c, q, -, hw⟩ | ⟨h, -, hw⟩
  · rw [hw, periodsLeft_of_some h]
  · rw [hw, periodsLeft_of_none h]
    rfl
  · rw [hw, periodsLeft_of_none h]
    rfl

theorem wordInShifter_trace (s : State) : (wordInShifter s).2.trace = s.trace := by
  rcases wordInShifter_cases s with ⟨w, -, hw⟩ | ⟨-, c, q, -, hw⟩ | ⟨-, -, hw⟩ <;> rw [hw]

/-- One clock period adds a word to the trace exactly where it ends one. -/
theorem clockBit_trace {b : Bool} {s t : State} (h : clockBit b s = .next t) :
    (t.trace = s.trace ∧ periodsLeft t + 1 = periodsLeft s) ∨
    (periodsLeft s = 1 ∧ periodsLeft t = 8 ∧ ∃ m v, t.trace = s.trace ++ [.word m v]) := by
  have hleft := periodsLeft_wordInShifter s
  rcases clockBit_eq_next (Prod.mk.eta (p := wordInShifter s)).symm h with ⟨hl, rfl⟩ | ⟨hl, -, rfl⟩
  · refine .inl ⟨wordInShifter_trace s, ?_⟩
    rw [periodsLeft_of_some rfl, hleft, List.length_append, List.length_singleton]
    omega
  · exact .inr ⟨by omega, periodsLeft_of_none rfl, _, _, rfl⟩

/-- Too few clock periods to end the word add nothing to the trace (R35). -/
theorem clockBits_trace_short {bits : List Bool} {s t : State} (h : clockBits bits s = .next t)
    (hl : bits.length < periodsLeft s) : t.trace = s.trace := by
  induction bits generalizing s with
  | nil =>
    cases h
    rfl
  | cons b bits ih =>
    rw [List.length_cons] at hl
    obtain ⟨u, hu, ht⟩ := andThen_eq_next.1 h
    rcases clockBit_trace hu with ⟨he, hp⟩ | ⟨hp, -⟩
    · exact (ih ht (by omega)).trans he
    · omega

/-- Enough clock periods to end one word and not a second add one word to the trace. -/
theorem clockBits_trace_word {bits : List Bool} {s t : State} (h : clockBits bits s = .next t)
    (hl : periodsLeft s ≤ bits.length) (hu : bits.length < periodsLeft s + 8) :
    ∃ m v, t.trace = s.trace ++ [.word m v] := by
  induction bits generalizing s with
  | nil => exact absurd hl (Nat.not_le.2 (periodsLeft_pos s))
  | cons b bits ih =>
    rw [List.length_cons] at hl hu
    obtain ⟨u, hb, ht⟩ := andThen_eq_next.1 h
    rcases clockBit_trace hb with ⟨he, hp⟩ | ⟨hp, hp8, m, v, he⟩
    · rw [← he]
      exact ih ht (by omega) (by omega)
    · exact ⟨m, v, (clockBits_trace_short ht (by omega)).trans he⟩

/-- A clocked word, in any state of the shifter, adds one word to the trace. -/
theorem clockWord_trace {m : Byte} {s t : State} (h : clockWord m s = .next t) :
    ∃ m' v, t.trace = s.trace ++ [.word m' v] := by
  have hle : periodsLeft s ≤ 8 := by
    unfold periodsLeft
    split <;> omega
  have hpos := periodsLeft_pos s
  exact clockBits_trace_word (bits := bitsOf m) h hle (by show 8 < _; omega)

/-! ## Everything an instruction that completes can do -/

/-- The next states of an instruction, one form per row of R58 and per state of PUMP. -/
inductive Completes (s : State) : Instr → State → Prop
  | selAssert (hs : s.state = .inactive) (hf : s.txq.length < s.cfg.txDepth) :
      Completes s .selAssert { s with
        txCount := 0, rxCount := 0, state := .waitingAddress, txq := s.txq ++ [placeholder], diag := false }
  | selReassertW (hs : s.state = .waitingAddress) : Completes s .selReassertW s
  | selReassertT (hs : s.state = .transferring) : Completes s .selReassertT s
  | selDeassertI (hs : s.state = .inactive) :
      Completes s .selDeassertI (reinitPort { s with state := .inactive })
  | selDeassertW (hs : s.state = .waitingAddress) :
      Completes s .selDeassertW (reinitPort { s with state := .inactive })
  | selDeassertT (a : RegAddr) (hs : s.state = .transferring) (ha : s.addr = some a) :
      Completes s .selDeassertT
        (reinitPort { callEnd a s with state := .inactive, addr := none, bufs := none })
  | rxDiscard (b : Byte) (hs : s.state = .inactive) : Completes s (.rxDiscard b) s
  | rxAddr (b : Byte) (hs : s.state = .waitingAddress) :
      Completes s (.rxAddr b) (openTransaction b s)
  | rxData (b : Byte) (d : Buffers) (hs : s.state = .transferring) (hd : s.bufs = some d) :
      Completes s (.rxData b) (receiveData d [b] s)
  | txPrime (d : Buffers) (hs : s.state = .transferring) (hd : s.bufs = some d)
      (hf : s.txq.length < s.cfg.txDepth) :
      Completes s .txPrime { s with txq := s.txq ++ [nextTxByte d s], txCount := s.txCount + 1 }
  | pumpNothing (hq : s.rxq = []) : Completes s .pump s
  | pumpDiscard (hs : s.state = .inactive) : Completes s .pump { s with rxq := [] }
  | pumpAddr (b : Byte) (q : List Byte) (hs : s.state = .waitingAddress) (hq : s.rxq = b :: q) :
      Completes s .pump { receiveData (descriptorOf (answerOf s (addressOperand b)).1) q
        (openTransaction b s) with rxq := [] }
  | pumpData (d : Buffers) (hs : s.state = .transferring) (hd : s.bufs = some d) :
      Completes s .pump { receiveData d s.rxq s with rxq := [] }
  | diagTick : Completes s .diagTick { s with diag := true }
  | construct (n : Binding) (f g : Nat) (hc : s.constructed = false) (hn : n ∈ s.cfg.bindings) :
      Completes s (.construct n f g) { reinitPort s with
        constructed := true, binding := n, cbStart := f, cbEnd := g, state := .inactive, addr := none,
        bufs := none, txCount := 0, rxCount := 0, diag := true, selQ := s.selN, pendingSel := [],
        irqEnabled := true }
  | cbStart (a : RegAddr) (hs : s.state = .waitingAddress) (ha : s.addr = some a) :
      Completes s .cbStart (callStart a s)
  | cbEnd (a : RegAddr) (hs : s.state = .transferring) (ha : s.addr = some a) :
      Completes s .cbEnd (callEnd a s)
  | pReinit : Completes s .pReinit (reinitPort s)
  | wireAddr (b : Byte) {t : State} (h : clockWord b s = .next t) : Completes s (.wireAddr b) t
  | wireData (b : Byte) {t : State} (h : clockWord b s = .next t) : Completes s (.wireData b) t

/-- RX_DATA completes in `Transferring` with buffers, as one data byte handled (R90). -/
theorem exec_rxData_eq_next {b : Byte} {s t : State} (h : exec (.rxData b) s = .next t) :
    s.state = .transferring ∧ ∃ d, s.bufs = some d ∧ t = receiveData d [b] s := by
  obtain ⟨hs, -⟩ := requireState_eq_next.1 h
  rw [exec_rxData_eq_rxByte hs] at h
  rcases Option.eq_none_or_eq_some s.bufs with hd | ⟨d, hd⟩
  · rw [rxByte_of_noBuffers hs hd] at h
    cases h
  · rw [rxByte_of_transferring hs hd] at h
    cases h
    exact ⟨hs, d, hd, rfl⟩

theorem exec_completes {i : Instr} {s t : State} (h : exec i s = .next t) : Completes s i t := by
  cases i with
  | selAssert =>
    obtain ⟨hs, hf, rfl⟩ := exec_selAssert_eq_next.1 h
    exact .selAssert hs hf
  | selReassertW | selReassertT | selDeassertI | selDeassertW | rxDiscard b =>
    obtain ⟨hs, he⟩ := requireState_eq_next.1 h
    cases he
    constructor
    exact hs
  | selDeassertT =>
    obtain ⟨u, hu, rfl⟩ := exec_selDeassertT_eq_next.1 h
    obtain ⟨hs, a, ha, rfl⟩ := exec_cbEnd_eq_next.1 hu
    exact .selDeassertT a hs ha
  | rxAddr b =>
    obtain ⟨hs, -⟩ := requireState_eq_next.1 h
    rw [exec_rxAddr_eq_rxByte hs, rxByte_of_waitingAddress hs] at h
    cases h
    exact .rxAddr b hs
  | rxData b =>
    obtain ⟨hs, d, hd, rfl⟩ := exec_rxData_eq_next h
    exact .rxData b d hs hd
  | txPrime =>
    obtain ⟨hs, d, hd, hf, rfl⟩ := exec_txPrime_eq_next.1 h
    exact .txPrime d hs hd hf
  | pump =>
    rcases execPump_eq_next h with ⟨hq, rfl⟩ | ⟨hs, rfl⟩ | ⟨hs, b, q, hq, rfl⟩ | ⟨hs, d, hd, rfl⟩
    · exact .pumpNothing hq
    · exact .pumpDiscard hs
    · exact .pumpAddr b q hs hq
    · exact .pumpData d hs hd
  | diagTick =>
    cases h
    exact .diagTick
  | construct n f g =>
    obtain ⟨hc, hn, rfl⟩ := exec_construct_eq_next.1 h
    exact .construct n f g hc hn
  | cbStart =>
    obtain ⟨hs, a, ha, rfl⟩ := exec_cbStart_eq_next.1 h
    exact .cbStart a hs ha
  | cbEnd =>
    obtain ⟨hs, a, ha, rfl⟩ := exec_cbEnd_eq_next.1 h
    exact .cbEnd a hs ha
  | pReinit =>
    cases h
    exact .pReinit
  | wireAddr b => exact .wireAddr b h
  | wireData b => exact .wireData b h

/-- A clocked word changes only the shifter, the queues and the observer's logs. -/
theorem clockWord_frame {m : Byte} {s t : State} (h : clockWord m s = .next t) :
    t = withShifter s t.rxq t.txq t.shift t.frameIdx t.draws t.trace t.wire :=
  clockBits_frame h

/-! ## The statements -/

/-- Settles O42. -/
theorem stateMovesAlongTheTable : Obligations.StateMovesAlongTheTable := by
  intro i s t h hne
  cases exec_completes h with
  | selAssert hs => exact .inl ⟨rfl, hs, rfl⟩
  | selDeassertI hs => exact absurd hs.symm hne
  | selDeassertW hs => exact .inr (.inr (.inl ⟨rfl, hs, rfl⟩))
  | selDeassertT a hs => exact .inr (.inr (.inr (.inl ⟨rfl, hs, rfl⟩)))
  | rxAddr b hs => exact .inr (.inl ⟨.inl ⟨b, rfl⟩, hs, rfl⟩)
  | pumpAddr b q hs => exact .inr (.inl ⟨.inr rfl, hs, rfl⟩)
  | construct n f g hc => exact .inr (.inr (.inr (.inr ⟨⟨n, f, g, rfl⟩, hc, rfl⟩)))
  | selReassertW | selReassertT | rxDiscard | rxData | txPrime | pumpNothing | pumpDiscard | pumpData |
    diagTick | cbStart | cbEnd | pReinit => exact absurd rfl hne
  | wireAddr b hw | wireData b hw =>
    rw [clockWord_frame hw] at hne
    exact absurd rfl hne

/-- Settles O43. -/
theorem countersOnlyGrow : Obligations.CountersOnlyGrow := by
  intro i s t h
  cases exec_completes h with
  | selAssert => exact .inl ⟨.inl rfl, rfl, rfl⟩
  | construct n f g => exact .inl ⟨.inr ⟨n, f, g, rfl⟩, rfl, rfl⟩
  | rxAddr b => exact .inr ⟨Nat.le_add_right .., le_rfl, by simp [openTransaction], by simp⟩
  | rxData b => exact .inr ⟨Nat.le_add_right .., Nat.le_add_right .., by simp, by simp⟩
  | txPrime => exact .inr ⟨Nat.le_add_right .., le_rfl, by simp, by simp⟩
  | pumpAddr b q =>
    exact .inr ⟨Nat.le_add_right_of_le (Nat.le_add_right ..), Nat.le_add_right .., by simp, by simp⟩
  | pumpData d => exact .inr ⟨Nat.le_add_right .., Nat.le_add_right .., by simp, by simp⟩
  | selReassertW | selReassertT | selDeassertI | selDeassertW | selDeassertT | rxDiscard | pumpNothing |
    pumpDiscard | diagTick | cbStart | cbEnd | pReinit => exact .inr ⟨le_rfl, le_rfl, by simp, by simp⟩
  | wireAddr b hw | wireData b hw =>
    rw [clockWord_frame hw]
    exact .inr ⟨le_rfl, le_rfl, by simp [withShifter], by simp [withShifter]⟩

/-- Settles O46. -/
theorem onlyConstructConfigures : Obligations.OnlyConstructConfigures := by
  intro i s t h
  cases exec_completes h with
  | construct n f g hc => exact ⟨rfl, rfl, rfl, rfl, by simp [hc]⟩
  | wireAddr b hw | wireData b hw =>
    rw [clockWord_frame hw]
    exact ⟨rfl, rfl, rfl, rfl, fun _ => ⟨rfl, rfl, rfl, rfl, rfl, rfl, rfl⟩⟩
  | _ => exact ⟨rfl, rfl, rfl, rfl, fun _ => ⟨rfl, rfl, rfl, rfl, rfl, rfl, rfl⟩⟩

/-- Settles O47: the three forms that call `Start` count the call. -/
theorem memoryChangesOnlyWhereStated : Obligations.MemoryChangesOnlyWhereStated := by
  intro i s t h hcalls
  cases exec_completes h with
  | rxAddr | pumpAddr | cbStart => exact absurd hcalls (Nat.succ_ne_self _)
  | rxData b => exact ⟨fun _ => rfl, fun hb => absurd rfl (hb b)⟩
  | pumpData => exact ⟨fun _ => rfl, fun _ hp => absurd rfl hp⟩
  | wireAddr b hw | wireData b hw =>
    rw [clockWord_frame hw]
    exact ⟨fun _ => rfl, fun _ _ _ => rfl⟩
  | _ => exact ⟨fun _ => rfl, fun _ _ _ => rfl⟩

/-- Settles O48. -/
theorem callsHappenOnlyWhereStated : Obligations.CallsHappenOnlyWhereStated := by
  intro i s t h
  cases exec_completes h with
  | rxAddr b hs => exact .inr (.inl ⟨_, _, rfl, hs, .inl ⟨b, rfl⟩⟩)
  | pumpAddr b q hs => exact .inr (.inl ⟨_, _, rfl, hs, .inr (.inl rfl)⟩)
  | cbStart a hs => exact .inr (.inl ⟨_, _, rfl, hs, .inr (.inr rfl)⟩)
  | selDeassertT a hs => exact .inr (.inr (.inl ⟨_, _, _, rfl, hs, .inl rfl⟩))
  | cbEnd a hs => exact .inr (.inr (.inl ⟨_, _, _, rfl, hs, .inr rfl⟩))
  | wireAddr b hw =>
    obtain ⟨m, v, he⟩ := clockWord_trace hw
    exact .inr (.inr (.inr ⟨m, v, he, .inl ⟨b, rfl⟩⟩))
  | wireData b hw =>
    obtain ⟨m, v, he⟩ := clockWord_trace hw
    exact .inr (.inr (.inr ⟨m, v, he, .inr ⟨b, rfl⟩⟩))
  | _ => exact .inl rfl

end Sys2Proof.Machine
end

section
/-! PROOFS. The invariant (10_state.md section 5): every step keeps it, and no handler stops from a state
that meets it. -/

namespace Sys2Proof.Machine

/-! ## What a step can be -/

/-- The operations of the external events (R56). -/
def isExternal : Instr → Bool
  | .selAssert | .selReassertW | .selReassertT | .selDeassertI | .selDeassertW | .selDeassertT => true
  | .pump | .diagTick | .construct _ _ _ => true
  | .rxDiscard _ | .rxAddr _ | .rxData _ | .txPrime | .cbStart | .cbEnd | .pReinit => false
  | .wireAddr _ | .wireData _ => false

theorem isExternal_selectOp (e : SelEdge) (st : TransactionState) : isExternal (selectOp e st) = true := by
  cases e <;> cases st <;> rfl

/-- CONSTRUCT's event is CONSTRUCT with its operands, or refused for want of them (R58, log 12). -/
theorem dispatch_construct_eq_next {ops : List Byte} {s t : State}
    (h : dispatch Event.construct.code ops s = .next t) :
    ∃ n f g, exec (.construct n f g) s = .next t := by
  unfold dispatch at h
  rw [decode_construct] at h
  unfold constructOperands at h
  split at h
  · next he =>
    split at he
    · cases he
      exact ⟨_, _, _, h⟩
    · cases he
  · cases h

/-- The codes that are no internal event (R56, R59). -/
theorem externalCode_cases (code : BitVec 4) (h : internalEvent code = false) :
    (∃ e : SelEdge, code = e.event.code) ∨ code = Event.pump.code ∨ code = Event.tick.code ∨
      code = Event.construct.code ∨ 10 ≤ code.toNat := by
  have hcodes : ∀ code : BitVec 4, internalEvent code = false →
      code = SelEdge.fall.event.code ∨ code = SelEdge.rise.event.code ∨ code = Event.pump.code ∨
        code = Event.tick.code ∨ code = Event.construct.code ∨ 10 ≤ code.toNat := by
    decide
  rcases hcodes code h with h | h | h
  · exact .inl ⟨.fall, h⟩
  · exact .inl ⟨.rise, h⟩
  · exact .inr h

/-- An event on the free port that completes is an external operation, on an engine or making one. -/
theorem presentEvent_external_eq_next {code : BitVec 4} {ops : List Byte} {s t : State}
    (h : presentEvent code ops s = .next t) :
    ∃ i, isExternal i = true ∧ (s.constructed = true ∨ ∃ n f g, i = .construct n f g) ∧
      exec i s = .next t := by
  unfold presentEvent at h
  split at h
  · cases h
  next hi =>
  split at h
  next hb =>
    have hb' : s.constructed = true ∨ code = Event.construct.code := by simpa using hb
    rcases externalCode_cases code (Bool.eq_false_iff.2 hi) with ⟨e, rfl⟩ | rfl | rfl | rfl | hr
    · rw [dispatch_select] at h
      exact ⟨_, isExternal_selectOp e _, .inl (hb'.resolve_right (by cases e <;> decide)), h⟩
    · exact ⟨.pump, rfl, .inl (hb'.resolve_right (by decide)), (dispatch_pump ops s).symm.trans h⟩
    · exact ⟨.diagTick, rfl, .inl (hb'.resolve_right (by decide)), (dispatch_tick ops s).symm.trans h⟩
    · obtain ⟨n, f, g, he⟩ := dispatch_construct_eq_next h
      exact ⟨_, rfl, .inr ⟨n, f, g, rfl⟩, he⟩
    · obtain ⟨hreserved, -⟩ := reservedDispatchWordsAreRefused code s.state.code ops
      rw [dispatch_of_decode_error (hreserved hr)] at h
      cases h
  · cases h

/-- What one input can leave: nothing done, a sample of the select line, an external operation, with a
posted edge consumed where one is serviced, or clock periods. -/
inductive Takes (s : State) : State → Prop
  | nothing : Takes s s
  | sample (level : Bool) : Takes s (driveSelect level s)
  | handler (i : Instr) (posted : List SelEdge) {t : State} (hi : isExternal i = true)
      (hp : posted = s.pendingSel ∨ ∃ e, s.pendingSel = e :: posted)
      (hb : s.irqEnabled = true ∨ s.constructed = true ∨ ∃ n f g, i = .construct n f g)
      (h : exec i { s with pendingSel := posted } = .next t) : Takes s t
  | clock (bits : List Bool) {t : State} (h : clockBits bits s = .next t) : Takes s t

theorem runInput_takes {i : Input} {s t : State} (h : runInput i s = .next t) : Takes s t := by
  cases i with
  | sel level =>
    cases h
    exact .sample level
  | service source =>
    cases source with
    | selectEdge =>
      cases hb : s.irqEnabled with
      | false =>
        rw [runInput, serviceSelect_disabled hb] at h
        cases h
        exact .nothing
      | true =>
        cases hp : s.pendingSel with
        | nil =>
          rw [runInput, serviceSelect_none hp] at h
          cases h
          exact .nothing
        | cons e p =>
          rw [runInput, serviceSelect_posted hb hp] at h
          exact .handler _ p (isExternal_selectOp e _) (.inr ⟨e, hp⟩) (.inl hb) h
    | byteReady =>
      cases hb : s.irqEnabled with
      | false =>
        rw [runInput, servicePump_disabled hb] at h
        cases h
        exact .nothing
      | true =>
        rw [runInput, servicePump_enabled hb] at h
        exact .handler .pump s.pendingSel rfl (.inl rfl) (.inl hb) h
  | event code ops =>
    obtain ⟨j, hj, hb, he⟩ := presentEvent_external_eq_next h
    exact .handler j s.pendingSel hj (.inl rfl) (.inr hb) he
  | clk m =>
    rw [runInput, clockInput_eq_clockWord] at h
    exact .clock (bitsOf m) h
  | bit b => exact .clock [b] ((andThen_next_right _).trans h)

/-- Where no internal step was placed a step takes an input, or is idle. -/
theorem step_takes {s t : State} (hi : s.inner = none) (h : step s = .next t) :
    ∃ rest, Takes { s with inputs := rest } t := by
  cases hin : s.inputs with
  | nil =>
    rw [step_idle hi hin] at h
    cases h
    exact ⟨s.inputs, .nothing⟩
  | cons i rest =>
    rw [step_input hi hin] at h
    exact ⟨rest, runInput_takes h⟩

/-! ## The invariant across one input -/

/-- The schedule is no part of the invariant. -/
theorem setInputs_invariant {s : State} (hs : Invariant s) (rest : List Input) :
    Invariant { s with inputs := rest } :=
  { hs with }

/-- Consuming the oldest posted edge keeps the invariant: what is left still alternates and ends at the
line's level (R71). -/
theorem consumeEdge_invariant {s : State} (hs : Invariant s) {posted : List SelEdge}
    (hp : posted = s.pendingSel ∨ ∃ e, s.pendingSel = e :: posted) :
    Invariant { s with pendingSel := posted } := by
  rcases hp with rfl | ⟨e, he⟩
  · exact hs
  · have halt := hs.alternates
    have hlast := hs.lastEdge
    rw [he] at halt hlast
    refine { hs with
      alternates := halt.tail
      lastEdge := fun f hf => hlast f ?_
      unbuilt := fun hc => ?_ }
    · rw [List.getLast?_cons, show posted.getLast? = some f from hf, Option.getD_some]
    · have := (hs.unbuilt hc).2
      rw [he] at this
      cases this

/-- What a sample of another level posts (R70). -/
theorem edgeOf_of_ne {q l : Bool} (h : q ≠ l) : edgeOf q l = [if l then .rise else .fall] := by
  revert q l
  decide

/-- Posted edges that alternate and end at the line's level do so after the edge to another level (R71). -/
theorem alternates_append_edge {posted : List SelEdge} {old new : Bool} (hne : old ≠ new)
    (halt : posted.IsChain (fun e f => e ≠ f))
    (hlast : ∀ e, posted.getLast? = some e → e = if old then .rise else .fall) :
    (posted ++ [if new then SelEdge.rise else .fall]).IsChain (fun e f => e ≠ f) := by
  refine List.isChain_append.2 ⟨halt, List.isChain_singleton _, fun e he f hf => ?_⟩
  cases hlast e he
  cases hf
  cases old <;> cases new <;> simp at hne ⊢

/-- An edge is posted only where the line changes, and then it is the edge to the new level (R70, R71). -/
theorem driveSelect_invariant {s : State} (hs : Invariant s) (level : Bool) :
    Invariant (driveSelect level s) := by
  by_cases hl : s.selN = level
  · rwa [driveSelect_same (hs.selFollows.trans hl) hl]
  have hq : s.selQ ≠ level := hs.selFollows ▸ hl
  refine { hs with
    shiftBound := by simp [hl]
    residueBound := ?_
    selFollows := rfl
    alternates := ?_
    lastEdge := ?_
    unbuilt := fun hc => ?_ }
  · rw [driveSelect_residue, if_neg hl]
    intro w hw
    rcases List.mem_append.1 hw with hw | hw
    · exact hs.residueBound w hw
    · exact hs.shiftBound w (Option.mem_toList.1 hw)
  · rw [driveSelect_pendingSel, edgeOf_of_ne hq]
    split
    · exact alternates_append_edge hl hs.alternates hs.lastEdge
    · simpa using hs.alternates
  · rw [driveSelect_pendingSel, edgeOf_of_ne hq]
    split
    · cases level <;> simp [eq_comm]
    next hc =>
      obtain ⟨-, hnone⟩ := hs.unbuilt (Bool.eq_false_iff.2 hc)
      simp [hnone]
  · obtain ⟨hst, hnone⟩ := hs.unbuilt hc
    exact ⟨hst, by simp [hnone, show s.constructed = false from hc]⟩

/-- A clock period keeps the invariant: it only shortens the transmit path, and a byte joins the receive
queue only where there is room (R133, R134). -/
theorem clockBit_invariant {b : Bool} {s t : State} (hs : Invariant s) (h : clockBit b s = .next t) :
    Invariant t := by
  rcases Option.eq_none_or_eq_some s.shift with hw | ⟨w, hw⟩
  · rw [clockBit_of_none hw] at h
    cases h
    exact { hs with
      quiet := fun hst => by simp [hs.quiet hst]
      txBound := s.txq.tail_sublist.length_le.trans hs.txBound
      shiftBound := by
        intro w h
        cases h
        exact (by decide : 1 < 8) }
  · have hl := hs.shiftBound w hw
    by_cases hlt : w.sampled.length < 7
    · rw [clockBit_of_short hw hlt] at h
      cases h
      exact { hs with
        shiftBound := by
          intro w h
          cases h
          simpa using Nat.succ_lt_succ hlt }
    · rw [clockBit_of_last hw (by omega)] at h
      split at h
      next hr =>
        cases h
        exact { hs with
          rxBound := by simpa using hr
          shiftBound := nofun }
      · cases h

theorem clockBits_invariant {bits : List Bool} {s t : State} (hs : Invariant s)
    (h : clockBits bits s = .next t) : Invariant t := by
  induction bits generalizing s with
  | nil =>
    cases h
    exact hs
  | cons b bits ih =>
    obtain ⟨u, hu, ht⟩ := andThen_eq_next.1 h
    exact ih (clockBit_invariant hs hu) ht

/-! ## The invariant across an instruction -/

/-- Emptying the peripheral keeps the invariant (R130). -/
theorem reinitPort_invariant {s : State} (hs : Invariant s) : Invariant (reinitPort s) :=
  { hs with
    quiet := fun _ => rfl
    txBound := Nat.zero_le _
    rxBound := Nat.zero_le _
    shiftBound := nofun
    residueBound := nofun }

/-- The return to `Inactive` with everything detached keeps the invariant, where an engine exists. -/
theorem release_invariant {s : State} (hs : Invariant s) :
    Invariant (reinitPort { s with state := .inactive, addr := none, bufs := none }) :=
  { reinitPort_invariant hs with
    attached := nofun
    detached := fun _ => ⟨rfl, rfl⟩
    addrByte := nofun
    armed := nofun
    quiet := fun _ => rfl
    unbuilt := fun hc => ⟨rfl, (hs.unbuilt hc).2⟩ }

/-- Priming fills the transmit path to its depth and no further (R92, R133). -/
theorem length_txq_receiveData_le {s : State} (hs : s.txq.length ≤ s.cfg.txDepth) (d : Buffers)
    (q : List Byte) : (receiveData d q s).txq.length ≤ s.cfg.txDepth := by
  cases q with
  | nil => simpa using hs
  | cons b q =>
    rw [length_txq_receiveData, primedBy_cons]
    omega

/-- Data bytes keep the invariant (R90, R92). -/
theorem receiveData_invariant {s : State} (hs : Invariant s) (hst : s.state = .transferring)
    (d : Buffers) (q : List Byte) : Invariant { receiveData d q s with rxq := [] } :=
  { hs with
    armed := fun h => by cases hst.symm.trans h
    quiet := fun h => by cases hst.symm.trans h
    txBound := length_txq_receiveData_le hs.txBound d q
    rxBound := Nat.zero_le _
    rxWf := storeBytes_wf d s.rxCount q hs.rxWf }

/-- The address byte keeps the invariant (R13, R24, R89). -/
theorem openTransaction_invariant {s : State} (hs : Invariant s) (hc : s.constructed = true) (b : Byte) :
    Invariant (openTransaction b s) :=
  { hs with
    attached := fun _ => ⟨rfl, rfl⟩
    detached := fun h => absurd rfl h
    addrByte := by
      intro a h
      cases h
      have := b.isLt
      rw [addressOperand, BitVec.toNat_setWidth]
      omega
    armed := nofun
    quiet := nofun
    txBound := by
      have := hs.txBound
      rw [length_txq_openTransaction]
      exact (Nat.add_sub_of_le this).le
    txWf := Memory.load_wf hs.txWf _ _
    rxWf := Memory.load_wf hs.rxWf _ _
    unbuilt := fun h => by cases hc.symm.trans h }

/-- An external operation keeps the invariant, where an engine exists or it makes one. -/
theorem exec_invariant {i : Instr} {s t : State} (hi : isExternal i = true)
    (hb : s.constructed = true ∨ ∃ n f g, i = .construct n f g) (hs : Invariant s)
    (h : exec i s = .next t) : Invariant t := by
  cases exec_completes h with
  | selReassertW | selReassertT | pumpNothing => exact hs
  | selAssert hst hf =>
    obtain ⟨haddr, hbufs⟩ := hs.detached (by simp [hst])
    exact { hs with
      attached := nofun
      detached := fun _ => ⟨haddr, hbufs⟩
      armed := fun _ => ⟨rfl, rfl⟩
      quiet := nofun
      txBound := by simpa using hf
      unbuilt := fun hc => by simp [show s.constructed = true by simpa using hb] at hc }
  | selDeassertI hst | selDeassertW hst =>
    obtain ⟨haddr, hbufs⟩ := hs.detached (by simp [hst])
    have := release_invariant hs
    rwa [← haddr, ← hbufs] at this
  | selDeassertT a => exact { release_invariant hs with }
  | pumpDiscard hst => exact { hs with rxBound := Nat.zero_le _ }
  | pumpAddr b q hst hq =>
    exact receiveData_invariant (openTransaction_invariant hs (by simpa using hb) b) rfl _ q
  | pumpData d hst hd => exact receiveData_invariant hs hst d s.rxq
  | diagTick => exact { hs with }
  | construct n f g hc hn =>
    exact { release_invariant hs with
      armed := nofun
      selFollows := rfl
      alternates := List.isChain_nil
      lastEdge := nofun
      enabled := rfl
      unbuilt := nofun }
  | rxDiscard | rxAddr | rxData | txPrime | cbStart | cbEnd | pReinit | wireAddr | wireData => cases hi

/-! ## The statements -/

theorem takes_invariant {s t : State} (hs : Invariant s) (h : Takes s t) : Invariant t := by
  cases h with
  | nothing => exact hs
  | sample level => exact driveSelect_invariant hs level
  | handler i posted hi hp hb h =>
    rw [hs.enabled, ← or_assoc, or_self] at hb
    exact exec_invariant (s := { s with pendingSel := posted }) hi hb (consumeEdge_invariant hs hp) h
  | clock bits h => exact clockBits_invariant hs h

/-- Settles O3: a step is one of the things an input can leave, each of which keeps the invariant. -/
theorem stepKeepsInvariant : Obligations.StepKeepsInvariant := by
  intro s t hs h
  obtain ⟨rest, htakes⟩ := step_takes hs.noInner h
  exact takes_invariant (setInputs_invariant hs rest) htakes

/-- Settles O1: each field is read off. -/
theorem resetLeavesConstructedEngine : Obligations.ResetLeavesConstructedEngine := by
  unfold Obligations.ResetLeavesConstructedEngine
  decide

theorem reset_invariant : Invariant State.reset where
  attached := by decide
  detached := by decide
  addrByte := nofun
  armed := by decide
  quiet := by decide
  txBound := by decide
  rxBound := by decide
  shiftBound := nofun
  residueBound := nofun
  selFollows := rfl
  alternates := List.isChain_nil
  lastEdge := nofun
  txWf := by decide
  rxWf := by decide
  depths := by decide
  noInner := rfl
  enabled := rfl
  unbuilt := nofun

theorem reset_idle : Idle State.reset where
  built := rfl
  inactive := rfl
  rxEmpty := rfl
  txEmpty := rfl
  noWord := rfl
  noResidue := rfl
  selHigh := rfl
  sampledHigh := rfl
  noPending := rfl
  enabled := rfl
  noInner := rfl
  depths := by decide

/-- Settles O2. -/
theorem resetMeetsInvariantAndIsIdle : Obligations.ResetMeetsInvariantAndIsIdle :=
  ⟨reset_invariant, reset_idle⟩

/-- From a state that meets the invariant the operation a select edge selects completes (R24, R72): there is
a free slot for the placeholder, and an address for `End`. -/
theorem exec_selectOp_completes {s : State} (hs : Invariant s) (e : SelEdge) :
    ∃ t, exec (selectOp e s.state) s = .next t := by
  rcases state_cases s with hst | hst | hst <;> cases e <;> rw [hst]
  · have hf : s.txq.length < s.cfg.txDepth := by
      rw [hs.quiet hst]
      exact hs.depths.1
    exact ⟨_, exec_selAssert_eq_next.2 ⟨hst, hf, rfl⟩⟩
  · exact ⟨_, exec_selDeassertI hst⟩
  · exact ⟨s, requireState_of hst _⟩
  · exact ⟨_, exec_selDeassertW hst⟩
  · exact ⟨s, requireState_of hst _⟩
  · obtain ⟨a, ha⟩ := Option.isSome_iff_exists.1 (hs.attached hst).1
    exact ⟨_, exec_selDeassertT_eq_next.2 ⟨_, exec_cbEnd_eq_next.2 ⟨hst, a, ha, rfl⟩, rfl⟩⟩

/-- Servicing either source completes from a state that meets the invariant. -/
theorem service_completes {s : State} (hs : Invariant s) (source : Irq) :
    ∃ t, runInput (.service source) s = .next t := by
  cases hb : s.irqEnabled with
  | false =>
    cases source with
    | selectEdge => exact ⟨s, serviceSelect_disabled hb⟩
    | byteReady => exact ⟨s, servicePump_disabled hb⟩
  | true =>
    cases source with
    | selectEdge =>
      cases hp : s.pendingSel with
      | nil => exact ⟨s, serviceSelect_none hp⟩
      | cons e p =>
        obtain ⟨t, ht⟩ := exec_selectOp_completes (consumeEdge_invariant hs (.inr ⟨e, hp⟩)) e
        exact ⟨t, (serviceSelect_posted hb hp).trans ht⟩
    | byteReady =>
      obtain ⟨t, ht, -⟩ := pumpDrainsEveryByte s (fun hst => (hs.attached hst).2)
      exact ⟨t, (servicePump_enabled hb).trans ht⟩

/-- Settles O50. -/
theorem handlersAlwaysComplete : Obligations.HandlersAlwaysComplete := by
  intro s source more hs hin
  obtain ⟨t, ht⟩ := service_completes (setInputs_invariant hs more) source
  have hstep : step s = .next t := (step_input hs.noInner hin).trans ht
  exact ⟨t, hstep, stepKeepsInvariant s t hs hstep⟩

end Sys2Proof.Machine
end

section
/-! PROOFS. Non-interference: `diag` is read by nothing (R18), and what an earlier transaction left in the
counters reaches nothing (R117). -/

namespace Sys2Proof.Machine

/-! ## Runs -/

/-- `k` steps, as a sequence of steps. -/
def runFor : Nat → State → Host.Outcome State Fault Refusal
  | 0, s => .next s
  | k + 1, s => andThen (step s) (runFor k)

/-- A run of the machine behind the host's interface is that sequence. -/
theorem run_eq_runFor (k : Nat) (s : State) : Host.Core.run core k s = runFor k s := by
  induction k generalizing s with
  | zero => rfl
  | succ k ih =>
    have hstep : core.step s = step s := rfl
    rw [runFor]
    cases hs : step s <;> simp only [Host.Core.run, hstep, hs]
    · exact ih _
    all_goals rfl

theorem runFor_succ_of_step {s u : State} (h : step s = .next u) (k : Nat) :
    runFor (k + 1) s = runFor k u := by
  rw [runFor, h, andThen_next]

theorem runFor_add (j k : Nat) (s : State) : runFor (j + k) s = andThen (runFor j s) (runFor k) := by
  induction j generalizing s with
  | zero => rw [Nat.zero_add, runFor, andThen_next]
  | succ j ih =>
    rw [Nat.succ_add, runFor, runFor, andThen_assoc]
    congr 1
    funext u
    exact ih u

/-! ## Meanings that do not see a part of the state -/

/-- `f` does not see what `hide` hides: it ends the same way from states that differ only there, in states
that differ only there. -/
def Blind (hide : State → State) (f : State → Host.Outcome State Fault Refusal) : Prop :=
  ∀ s s', hide s' = hide s → mapNext hide (f s') = mapNext hide (f s)

theorem blind_andThen {hide : State → State} {f g : State → Host.Outcome State Fault Refusal}
    (hf : Blind hide f) (hg : Blind hide g) : Blind hide (fun s => andThen (f s) g) := by
  intro s s' h
  have hfs := hf s s' h
  dsimp only
  revert hfs
  cases f s' with
  | next u' =>
    cases f s with
    | next u => exact fun hfs => hg u u' (Host.Outcome.next.inj hfs)
    | fault r | refused r => exact nofun
  | fault r' =>
    cases f s with
    | fault r => exact id
    | next u | refused r => exact nofun
  | refused r' =>
    cases f s with
    | refused r => exact id
    | next u | fault r => exact nofun

/-- A run is blind where a step is. -/
theorem runFor_blind {hide : State → State} (h : Blind hide step) (k : Nat) : Blind hide (runFor k) := by
  induction k with
  | zero => exact fun s s' hs => congrArg Host.Outcome.next hs
  | succ k ih => exact blind_andThen h ih

/-- A `require` line does not see what its body does not, where the state is seen. -/
theorem mapNext_requireState {hide : State → State} {s s' : State} (hs : s'.state = s.state)
    {body body' : Host.Outcome State Fault Refusal} (h : mapNext hide body' = mapNext hide body)
    (st : TransactionState) :
    mapNext hide (requireState st s' body') = mapNext hide (requireState st s body) := by
  by_cases hst : s.state = st
  · rw [requireState_of hst, requireState_of (hs.trans hst), h]
  · rw [requireState_not hst, requireState_not (hs ▸ hst)]

/-! ## The shifter sees neither `diag` nor the counters -/

/-- `diag` and both counters set. -/
def setMarks (diag : Bool) (txCount rxCount : Nat) (s : State) : State :=
  { s with diag := diag, txCount := txCount, rxCount := rxCount }

theorem wordInShifter_setMarks (diag : Bool) (n m : Nat) (s : State) :
    wordInShifter (setMarks diag n m s) =
      ((wordInShifter s).1, setMarks diag n m (wordInShifter s).2) := by
  simp only [wordInShifter, setMarks]
  split <;> rfl

theorem endWord_setMarks (received sent : Byte) (diag : Bool) (n m : Nat) (s : State) :
    endWord received sent (setMarks diag n m s) = mapNext (setMarks diag n m) (endWord received sent s) := by
  by_cases hr : rxRoom s = true
  · rw [endWord, endWord, if_pos hr, if_pos (by exact hr)]
    rfl
  · rw [endWord, endWord, if_neg hr, if_neg (by exact hr)]
    rfl

theorem clockBits_singleton (b : Bool) (s : State) : clockBits [b] s = clockBit b s :=
  andThen_next_right _

theorem clockBit_setMarks (b diag : Bool) (n m : Nat) (s : State) :
    clockBit b (setMarks diag n m s) = mapNext (setMarks diag n m) (clockBit b s) := by
  rw [clockBit, clockBit, wordInShifter_setMarks]
  dsimp only
  split
  · rfl
  · exact endWord_setMarks _ _ diag n m { (wordInShifter s).2 with wire := _, shift := _ }

theorem clockBits_setMarks (bits : List Bool) (diag : Bool) (n m : Nat) (s : State) :
    clockBits bits (setMarks diag n m s) = mapNext (setMarks diag n m) (clockBits bits s) := by
  induction bits generalizing s with
  | nil => rfl
  | cons b bits ih =>
    rw [clockBits, clockBits, clockBit_setMarks]
    cases clockBit b s with
    | next u => exact ih u
    | fault r => rfl
    | refused r => rfl

/-! ## `diag` -/

/-- `diag` hidden. -/
def hideDiag (t : State) : State := { t with diag := true }

/-- Whatever passes `diag` on does not see it. -/
theorem mapNext_hideDiag_setDiag (o : Host.Outcome State Fault Refusal) (d : Bool) :
    mapNext hideDiag (mapNext (fun t => { t with diag := d }) o) = mapNext hideDiag o := by
  cases o <;> rfl

theorem txPush_setDiag (b : Byte) (s : State) (d : Bool) :
    txPush b { s with diag := d } = mapNext (fun t => { t with diag := d }) (txPush b s) := by
  by_cases hf : s.txq.length < s.cfg.txDepth
  · rw [txPush_of_free hf, txPush_of_free (by exact hf)]
    rfl
  · rw [txPush_of_full (Nat.not_lt.1 hf), txPush_of_full (by exact Nat.not_lt.1 hf)]
    rfl

/-- A received byte passes `diag` on. -/
theorem rxByte_setDiag (b : Byte) (s : State) (d : Bool) :
    rxByte b { s with diag := d } = mapNext (fun t => { t with diag := d }) (rxByte b s) :=
  rxByte_commutes (change := fun t => { t with diag := d }) (fun _ => rfl) (fun _ => rfl)
    (fun _ _ => rfl) (fun _ _ _ => rfl) b s

theorem execPump_setDiag (s : State) (d : Bool) :
    execPump { s with diag := d } = mapNext (fun t => { t with diag := d }) (execPump s) := by
  obtain ⟨q, hq⟩ : ∃ q, s.rxq = q := ⟨_, rfl⟩
  induction q generalizing s with
  | nil =>
    rw [execPump_nil hq, execPump_nil (s := { s with diag := d }) hq]
    rfl
  | cons b q ih =>
    rw [execPump_cons hq, execPump_cons (s := { s with diag := d }) hq]
    refine (congrArg (andThen · execPump) (rxByte_setDiag b { s with rxq := q } d)).trans ?_
    cases hr : rxByte b { s with rxq := q } with
    | next u => exact ih u (by rw [rxByte_frame hr]; rfl)
    | fault r => rfl
    | refused r => rfl

theorem clockBits_hideDiag (bits : List Bool) (s : State) (d : Bool) :
    mapNext hideDiag (clockBits bits { s with diag := d }) = mapNext hideDiag (clockBits bits s) := by
  have h := clockBits_setMarks bits d s.txCount s.rxCount s
  refine (congrArg (mapNext hideDiag) h).trans ?_
  cases hc : clockBits bits s with
  | next t =>
    rw [clockBits_frame hc]
    rfl
  | fault r => rfl
  | refused r => rfl

/-- A received byte taken by the operation of its state does not see `diag`, nor does the refusal of that
operation elsewhere. -/
theorem exec_rx_hideDiag {i : Instr} {b : Byte} {st : TransactionState}
    (hrx : ∀ s : State, s.state = st → exec i s = rxByte b s)
    (hrefused : ∀ s : State, s.state ≠ st → exec i s = .refused (.notInState st)) (s : State) (d : Bool) :
    mapNext hideDiag (exec i { s with diag := d }) = mapNext hideDiag (exec i s) := by
  by_cases hs : s.state = st
  · rw [hrx s hs, hrx _ (by exact hs), rxByte_setDiag, mapNext_hideDiag_setDiag]
  · rw [hrefused s hs, hrefused _ (by exact hs)]

/-- Settles O45: each meaning gives `diag` a value or passes it on. -/
theorem diagInfluencesNothing : Obligations.DiagInfluencesNothing := by
  intro i s d
  show mapNext hideDiag (exec i { s with diag := d }) = mapNext hideDiag (exec i s)
  cases i with
  | selAssert =>
    refine mapNext_requireState (by rfl) ?_ _
    have hpush := txPush_setDiag placeholder
      { s with txCount := 0, rxCount := 0, state := .waitingAddress } d
    refine (congrArg (mapNext hideDiag <| andThen · _) hpush).trans ?_
    cases txPush placeholder { s with txCount := 0, rxCount := 0, state := .waitingAddress } <;> rfl
  | selReassertW | selReassertT | selDeassertI | selDeassertW | rxDiscard b =>
    exact mapNext_requireState (by rfl) (by rfl) _
  | selDeassertT =>
    refine mapNext_requireState (by rfl) ?_ _
    by_cases hs : s.state = .transferring
    · rw [execCbEnd, execCbEnd, requireState_of hs, requireState_of (by exact hs)]
      dsimp only
      split <;> rfl
    · rw [execCbEnd, execCbEnd, requireState_not hs, requireState_not (by exact hs)]
  | rxAddr b =>
    exact exec_rx_hideDiag (fun s hs => exec_rxAddr_eq_rxByte hs b) (fun s hs => requireState_not hs _) s d
  | rxData b =>
    exact exec_rx_hideDiag (fun s hs => exec_rxData_eq_rxByte hs b) (fun s hs => requireState_not hs _) s d
  | txPrime =>
    refine mapNext_requireState (by rfl) ?_ _
    dsimp only
    split
    · rfl
    next e he =>
      refine (congrArg (mapNext hideDiag <| andThen · _) (txPush_setDiag (nextTxByte e s) s d)).trans ?_
      cases txPush (nextTxByte e s) s <;> rfl
  | pump => exact (congrArg _ (execPump_setDiag s d)).trans (mapNext_hideDiag_setDiag _ d)
  | diagTick | pReinit | construct n f g => rfl
  | cbStart | cbEnd =>
    refine mapNext_requireState (by rfl) ?_ _
    dsimp only
    split <;> rfl
  | wireAddr b | wireData b => exact clockBits_hideDiag (bitsOf b) s d

/-! ## The counters in `Inactive` -/

/-- The counters hidden while the state is `Inactive`. -/
def hideIdleCounters (t : State) : State :=
  if t.state = .inactive then { t with txCount := 0, rxCount := 0 } else t

theorem hideIdleCounters_of_inactive {s : State} (h : s.state = .inactive) :
    hideIdleCounters s = { s with txCount := 0, rxCount := 0 } := if_pos h

/-- In `Inactive` the counters are hidden, whatever they are. -/
theorem hideIdleCounters_setCounters {s : State} (h : s.state = .inactive) (n m : Nat) :
    hideIdleCounters { s with txCount := n, rxCount := m } = hideIdleCounters s := by
  rw [hideIdleCounters_of_inactive h, hideIdleCounters_of_inactive (by exact h)]

/-- What is not seen is only the counters, and only in `Inactive`. -/
theorem hideIdleCounters_eq {s s' : State} (h : hideIdleCounters s' = hideIdleCounters s) :
    s' = s ∨ (s.state = .inactive ∧ ∃ n m, s' = { s with txCount := n, rxCount := m }) := by
  unfold hideIdleCounters at h
  split at h <;> split at h
  next hs' hs =>
    refine .inr ⟨hs, s'.txCount, s'.rxCount, ?_⟩
    have h' := congrArg (fun t : State => { t with txCount := s'.txCount, rxCount := s'.rxCount }) h
    exact h'
  next hs' hs => exact absurd (h ▸ hs') hs
  next hs' hs => exact absurd (h ▸ hs) hs'
  · exact .inl h

/-- A meaning does not see the counters in `Inactive` where setting them there changes nothing else. -/
theorem blind_hideIdleCounters {f : State → Host.Outcome State Fault Refusal}
    (h : ∀ (s : State) (n m : Nat), s.state = .inactive →
      mapNext hideIdleCounters (f { s with txCount := n, rxCount := m }) =
        mapNext hideIdleCounters (f s)) : Blind hideIdleCounters f := by
  intro s s' hs
  rcases hideIdleCounters_eq hs with rfl | ⟨hst, n, m, rfl⟩
  · rfl
  · exact h s n m hst

theorem clockBits_hideIdleCounters (bits : List Bool) {s : State} (h : s.state = .inactive) (n m : Nat) :
    mapNext hideIdleCounters (clockBits bits { s with txCount := n, rxCount := m }) =
      mapNext hideIdleCounters (clockBits bits s) := by
  refine (congrArg (mapNext hideIdleCounters) (clockBits_setMarks bits s.diag n m s)).trans ?_
  cases hc : clockBits bits s with
  | next t =>
    have ht := clockBits_frame hc
    have hst : t.state = .inactive := by rw [ht]; exact h
    have hdiag : t.diag = s.diag := by rw [ht]; rfl
    refine congrArg Host.Outcome.next ?_
    rw [← hideIdleCounters_setCounters hst n m, setMarks, ← hdiag]
  | fault r => rfl
  | refused r => rfl

/-- A next state in `Inactive` gives away nothing of its counters. -/
theorem next_hideIdleCounters (u : State) (h : u.state = .inactive) (n m : Nat) :
    mapNext hideIdleCounters (.next { u with txCount := n, rxCount := m }) =
      mapNext hideIdleCounters (.next u) :=
  congrArg Host.Outcome.next (hideIdleCounters_setCounters h n m)

/-- In `Inactive` no instruction sees the counters: SEL_ASSERT and CONSTRUCT set them, the operations of
another state are refused, and the others pass them on. -/
theorem exec_hideIdleCounters (i : Instr) {s : State} (h : s.state = .inactive) (n m : Nat) :
    mapNext hideIdleCounters (exec i { s with txCount := n, rxCount := m }) =
      mapNext hideIdleCounters (exec i s) := by
  have hne : ∀ {st : TransactionState}, st ≠ .inactive → s.state ≠ st := fun hst => h ▸ hst.symm
  cases i with
  | selAssert | construct n' f g => rfl
  | selReassertW | selReassertT | selDeassertW | selDeassertT | rxAddr b | rxData b | txPrime | cbStart |
    cbEnd =>
    exact congrArg (mapNext hideIdleCounters)
      ((requireState_not (by exact hne (by decide)) _).trans (requireState_not (hne (by decide)) _).symm)
  | selDeassertI =>
    rw [exec_selDeassertI h, exec_selDeassertI (by exact h)]
    exact next_hideIdleCounters (reinitPort { s with state := .inactive }) rfl n m
  | rxDiscard b =>
    exact mapNext_requireState (by rfl) (next_hideIdleCounters s h n m) _
  | pump =>
    rw [exec, exec, execPump_of_inactive h, execPump_of_inactive (by exact h)]
    exact next_hideIdleCounters { s with rxq := [] } h n m
  | diagTick => exact next_hideIdleCounters { s with diag := true } h n m
  | pReinit => exact next_hideIdleCounters (reinitPort s) h n m
  | wireAddr b | wireData b => exact clockBits_hideIdleCounters (bitsOf b) h n m

theorem dispatch_hideIdleCounters (code : BitVec 4) (ops : List Byte) {s : State} (h : s.state = .inactive)
    (n m : Nat) :
    mapNext hideIdleCounters (dispatch code ops { s with txCount := n, rxCount := m }) =
      mapNext hideIdleCounters (dispatch code ops s) := by
  unfold dispatch
  dsimp only
  split
  · exact exec_hideIdleCounters _ h n m
  · rfl

theorem runInput_hideIdleCounters (i : Input) {s : State} (h : s.state = .inactive) (n m : Nat) :
    mapNext hideIdleCounters (runInput i { s with txCount := n, rxCount := m }) =
      mapNext hideIdleCounters (runInput i s) := by
  cases i with
  | sel level => exact next_hideIdleCounters (driveSelect level s) h n m
  | service source =>
    cases source with
    | selectEdge =>
      simp only [runInput, serviceSelect]
      split
      next e p _ _ => exact dispatch_hideIdleCounters _ [] (s := { s with pendingSel := p }) h n m
      · exact next_hideIdleCounters s h n m
    | byteReady =>
      simp only [runInput, servicePump]
      split
      · exact dispatch_hideIdleCounters _ [] h n m
      · exact next_hideIdleCounters s h n m
  | event code ops =>
    simp only [runInput, presentEvent]
    split
    · rfl
    · split
      · exact dispatch_hideIdleCounters code ops h n m
      · rfl
  | clk b =>
    simp only [runInput, clockInput]
    split
    · exact clockBits_hideIdleCounters (bitsOf b) h n m
    · exact exec_hideIdleCounters _ h n m
  | bit b =>
    have hbits := clockBits_hideIdleCounters [b] h n m
    rwa [clockBits_singleton, clockBits_singleton] at hbits

/-- No step from `Inactive` sees the counters. -/
theorem step_hideIdleCounters {s : State} (h : s.state = .inactive) (n m : Nat) :
    mapNext hideIdleCounters (step { s with txCount := n, rxCount := m }) =
      mapNext hideIdleCounters (step s) := by
  unfold step nextInput
  dsimp only
  split
  · exact dispatch_hideIdleCounters _ _ (s := { s with inner := none }) h n m
  next i rest _ _ => exact runInput_hideIdleCounters i (s := { s with inputs := rest }) h n m
  · exact next_hideIdleCounters s h n m

/-- RX_ADDR overwrites address and buffers before anything reads them (R89). -/
theorem exec_rxAddr_overwrites (s : State) (b : Byte) (x : Option RegAddr) (y : Option Buffers) :
    exec (.rxAddr b) { s with addr := x, bufs := y } = exec (.rxAddr b) s := by
  by_cases hs : s.state = .waitingAddress
  · rw [exec_rxAddr_eq_rxByte hs, exec_rxAddr_eq_rxByte (by exact hs), rxByte_of_waitingAddress hs,
      rxByte_of_waitingAddress (by exact hs)]
    rfl
  · exact (requireState_not (by exact hs) _).trans (requireState_not hs _).symm

/-- Settles O49: a step from `Inactive` does not see the counters, so no run does. -/
theorem transactionsAreIndependent : Obligations.TransactionsAreIndependent := by
  refine ⟨fun k s n m hs => ?_, exec_rxAddr_overwrites⟩
  rw [run_eq_runFor, run_eq_runFor]
  exact runFor_blind (blind_hideIdleCounters fun s n m hs => step_hideIdleCounters hs n m) k s _
    (hideIdleCounters_setCounters hs n m)

end Sys2Proof.Machine
end

section
/-! PROOFS. The calls of one select cycle (R26, R107, R109). -/

namespace Sys2Proof.Machine

@[simp] theorem callsOf_nil : callsOf [] = [] := rfl

@[simp] theorem callsOf_append (l l' : List Obs) : callsOf (l ++ l') = callsOf l ++ callsOf l' :=
  List.filter_append ..

/-- The calls that may still come in the cycle a state is in: none in `Inactive`; in `WaitingAddress` one
`Start` and then one `End` with its address; in `Transferring` the one `End`. -/
def CycleCalls (s : State) (calls : List Obs) : Prop :=
  (s.state = .inactive → calls = []) ∧
  (s.state = .waitingAddress → calls = [] ∨ (∃ a, calls = [.start s.cbStart a]) ∨
    ∃ a n, calls = [.start s.cbStart a, .finish s.cbEnd a n]) ∧
  (∀ a, s.state = .transferring → s.addr = some a → calls = [] ∨ ∃ n, calls = [.finish s.cbEnd a n])

/-- How one step moves the cycle on, with the calls it makes. -/
inductive CycleStep (s t : State) : List Obs → Prop
  | stays (hst : t.state = s.state) (ha : t.addr = s.addr) (hs : t.cbStart = s.cbStart)
      (he : t.cbEnd = s.cbEnd) : CycleStep s t []
  | idles (hst : t.state = .inactive) : CycleStep s t []
  | arms (h : arms s t) : CycleStep s t []
  | starts (a : RegAddr) (hs : s.state = .waitingAddress) (ht : t.state = .transferring)
      (ha : t.addr = some a) (he : t.cbEnd = s.cbEnd) : CycleStep s t [.start s.cbStart a]
  | finishes (a : RegAddr) (n : Int) (hs : s.state = .transferring) (ha : s.addr = some a)
      (ht : t.state = .inactive) : CycleStep s t [.finish s.cbEnd a n]

/-- What a step leaves of the cycle may follow the calls it makes, where it does not arm the engine. -/
theorem CycleCalls.cons_step {s t : State} {made later : List Obs} (h : CycleStep s t made)
    (hn : ¬arms s t) (ht : CycleCalls t later) : CycleCalls s (made ++ later) := by
  obtain ⟨hidle, hwait, htrans⟩ := ht
  cases h with
  | stays hst ha hs he =>
    rw [List.nil_append, CycleCalls, ← hst, ← ha, ← hs, ← he]
    exact ⟨hidle, hwait, htrans⟩
  | idles hst =>
    rw [hidle hst]
    exact ⟨fun _ => rfl, fun _ => .inl rfl, fun _ _ _ => .inl rfl⟩
  | arms h => exact absurd h hn
  | starts a hs hst ha he =>
    refine ⟨fun h => by simp [hs] at h, fun _ => ?_, fun a h => by simp [hs] at h⟩
    rcases htrans a hst ha with rfl | ⟨n, rfl⟩
    · exact .inr (.inl ⟨a, rfl⟩)
    · exact .inr (.inr ⟨a, n, by rw [he]; rfl⟩)
  | finishes a n hs ha hst =>
    rw [hidle hst]
    refine ⟨fun h => by simp [hs] at h, fun h => by simp [hs] at h, fun a' _ ha' => .inr ⟨n, ?_⟩⟩
    cases ha.symm.trans ha'
    rfl

/-- The schedule and the posted edges are no part of the cycle. -/
theorem CycleStep.of_schedule {s t : State} {rest : List Input} {posted : List SelEdge} {made : List Obs}
    (h : CycleStep { s with inputs := rest, pendingSel := posted } t made) : CycleStep s t made := by
  cases h with
  | stays hst ha hs he => exact .stays hst ha hs he
  | idles hst => exact .idles hst
  | arms h => exact .arms h
  | starts a hs ht ha he => exact .starts a hs ht ha he
  | finishes a n hs ha ht => exact .finishes a n hs ha ht

/-- An external operation moves the cycle on by the calls it adds to the trace. -/
theorem exec_cycleStep {i : Instr} {s t : State} (hi : isExternal i = true) (h : exec i s = .next t) :
    ∃ new, t.trace = s.trace ++ new ∧ CycleStep s t (callsOf new) := by
  cases exec_completes h with
  | selReassertW | selReassertT | pumpNothing | pumpDiscard | pumpData | diagTick =>
    exact ⟨[], (List.append_nil _).symm, .stays rfl rfl rfl rfl⟩
  | selAssert hs => exact ⟨[], (List.append_nil _).symm, .arms ⟨hs, rfl⟩⟩
  | selDeassertI | selDeassertW | construct => exact ⟨[], (List.append_nil _).symm, .idles rfl⟩
  | selDeassertT a hs ha => exact ⟨_, rfl, .finishes a _ hs ha rfl⟩
  | pumpAddr b q hs hq => exact ⟨_, rfl, .starts _ hs rfl rfl rfl⟩
  | rxDiscard | rxAddr | rxData | txPrime | cbStart | cbEnd | pReinit | wireAddr | wireData => cases hi

/-- Clock periods add no call to the trace (R61). -/
theorem clockBits_callsOf {bits : List Bool} {s t : State} (h : clockBits bits s = .next t) :
    ∃ new, t.trace = s.trace ++ new ∧ callsOf new = [] := by
  induction bits generalizing s with
  | nil =>
    cases h
    exact ⟨[], (List.append_nil _).symm, rfl⟩
  | cons b bits ih =>
    obtain ⟨u, hu, ht⟩ := andThen_eq_next.1 h
    obtain ⟨later, hl, hc⟩ := ih ht
    rcases clockBit_trace hu with ⟨he, -⟩ | ⟨-, -, m, v, he⟩
    · exact ⟨later, he ▸ hl, hc⟩
    · exact ⟨.word m v :: later, by rw [hl, he, List.append_assoc]; rfl, hc⟩

/-- Every step moves the cycle on by the calls it adds to the trace. -/
theorem step_cycleStep {s t : State} (hi : s.inner = none) (h : step s = .next t) :
    ∃ new, t.trace = s.trace ++ new ∧ CycleStep s t (callsOf new) := by
  obtain ⟨rest, htakes⟩ := step_takes hi h
  cases htakes with
  | nothing | sample level => exact ⟨[], (List.append_nil _).symm, .stays rfl rfl rfl rfl⟩
  | handler i posted hi hp hb h =>
    obtain ⟨new, ht, hc⟩ := exec_cycleStep hi h
    exact ⟨new, ht, CycleStep.of_schedule (s := s) hc⟩
  | clock bits h =>
    obtain ⟨new, ht, hc⟩ := clockBits_callsOf h
    refine ⟨new, ht, ?_⟩
    rw [hc, clockBits_frame h]
    exact .stays rfl rfl rfl rfl

/-- Settles O56, by induction on the length of the run. -/
theorem callbacksFireOncePerCycle : Obligations.CallbacksFireOncePerCycle := by
  intro k s t hs h harm
  suffices hcalls : ∃ new, t.trace = s.trace ++ new ∧ CycleCalls s (callsOf new) from hcalls
  induction k generalizing s with
  | zero =>
    cases h
    exact ⟨[], (List.append_nil _).symm, fun _ => rfl, fun _ => .inl rfl, fun _ _ _ => .inl rfl⟩
  | succ k ih =>
    rw [run_eq_runFor] at h
    obtain ⟨u, hu, ht⟩ := andThen_eq_next.1 h
    obtain ⟨made, hmade, hstep⟩ := step_cycleStep hs.noInner hu
    have hlater : ∀ j v w, j < k → Host.Core.run core j u = .next v → step v = .next w → ¬arms v w := by
      intro j v w hj hv hw
      refine harm (j + 1) v w (by omega) ?_ hw
      rw [run_eq_runFor, runFor_succ_of_step hu, ← run_eq_runFor]
      exact hv
    obtain ⟨later, hl, hc⟩ := ih u (stepKeepsInvariant s u hs hu) (by rw [run_eq_runFor]; exact ht) hlater
    refine ⟨made ++ later, by rw [hl, hmade, List.append_assoc], ?_⟩
    rw [callsOf_append]
    exact .cons_step hstep (harm 0 s u (by omega) rfl hu) hc

end Sys2Proof.Machine
end

section
/-! PROOFS. Timely schedules (R137): the lines of R61 and R62 are timely, and a timely run never
underruns or overruns while the line is asserted. -/

namespace Sys2Proof.Machine

/-! ## The lines of R61 and R62 -/

theorem timelyFrom_append (p : Timing) (l l' : List Input) :
    timelyFrom p (l ++ l') = (timelyFrom p l).bind (fun q => timelyFrom q l') := by
  induction l generalizing p with
  | nil => rfl
  | cons i l ih =>
    simp only [List.cons_append, timelyFrom, Option.bind_assoc]
    congr 1
    funext q
    exact ih q

/-- Between transactions, with `n` words clocked so far while the line was deasserted. -/
def betweenAt (n : Nat) : Timing := ⟨false, [], false, n⟩

/-- In a select cycle whose assertion was serviced, with every word pumped. -/
def selectedAt (n : Nat) : Timing := ⟨true, [], false, n⟩

theorem timelyFrom_xferLines (n : Nat) (ds : List Byte) :
    timelyFrom (selectedAt n) (xferLines ds) = some (selectedAt n) := by
  induction ds with
  | nil => rfl
  | cons d ds ih =>
    have hline : timelyFrom (selectedAt n) (xferLine d) = some (selectedAt n) := rfl
    rw [xferLines, List.flatMap_cons, timelyFrom_append, hline, Option.bind_some]
    exact ih

theorem timelyFrom_txnLine (n : Nat) (a : Byte) (ds : List Byte) :
    timelyFrom (betweenAt n) (txnLine a ds) = some (betweenAt n) := by
  have hfirst : timelyFrom (betweenAt n) (selFallLine ++ xferLine a) = some (selectedAt n) := rfl
  have hlast : timelyFrom (selectedAt n) selRiseLine = some (betweenAt n) := rfl
  rw [txnLine, timelyFrom_append, timelyFrom_append, hfirst, Option.bind_some, timelyFrom_xferLines,
    Option.bind_some, hlast]

/-- Settles O57, by induction on the lines: each goes from between transactions to between transactions, and
only an XFER counts a word clocked with the line deasserted. -/
theorem traceLinesAreTimely : Obligations.TraceLinesAreTimely := by
  intro lines hlines
  suffices hend : ∀ n, ∃ n', timelyFrom (betweenAt n) lines.flatten = some (betweenAt n') ∧
      ((∀ m, xferLine m ∉ lines) → n' = n) by
    obtain ⟨n', h, hn⟩ := hend 0
    exact ⟨betweenAt n', ⟨h, rfl⟩, rfl, rfl, hn⟩
  induction lines with
  | nil => exact fun n => ⟨n, rfl, fun _ => rfl⟩
  | cons l lines ih =>
    intro n
    have hline : ∃ k, timelyFrom (betweenAt n) l = some (betweenAt k) ∧
        ((∀ m, xferLine m ≠ l) → k = n) := by
      rcases hlines l (by simp) with ⟨a, ds, rfl⟩ | rfl | rfl | ⟨m, rfl⟩
      · exact ⟨n, timelyFrom_txnLine n a ds, fun _ => rfl⟩
      · exact ⟨n, rfl, fun _ => rfl⟩
      · exact ⟨n, rfl, fun _ => rfl⟩
      · exact ⟨n + 1, rfl, fun h => absurd rfl (h m)⟩
    obtain ⟨k, hk, hkn⟩ := hline
    obtain ⟨n', hn', hnk⟩ := ih (fun l hl => hlines l (by simp [hl])) k
    refine ⟨n', ?_, fun hx => ?_⟩
    · rw [List.flatten_cons, timelyFrom_append, hk, Option.bind_some, hn']
    · simp only [List.mem_cons, not_or] at hx
      exact (hnk fun m => (hx m).2).trans (hkn fun m => (hx m).1)

/-! ## The engine along a timely schedule -/

/-- Where the line, the posted edges and the state stand together in a timely schedule. -/
inductive Phase : Bool → List SelEdge → TransactionState → Prop
  | idle : Phase false [] .inactive
  | falling : Phase true [.fall] .inactive
  | pulse : Phase false [.fall, .rise] .inactive
  | selected {st : TransactionState} (h : st ≠ .inactive) : Phase true [] st
  | rising {st : TransactionState} (h : st ≠ .inactive) : Phase false [.rise] st

/-- A deassertion is posted behind the assertion that is still to be serviced, if one is. -/
theorem Phase.rise {posted : List SelEdge} {st : TransactionState} (h : Phase true posted st) :
    Phase false (posted ++ [.rise]) st := by
  cases h with
  | falling => exact .pulse
  | selected hs => exact .rising hs

/-- An assertion is posted only where no deassertion waits (R137). -/
theorem Phase.fall {posted : List SelEdge} {st : TransactionState} (h : Phase false posted st)
    (hr : .rise ∉ posted) : Phase true (posted ++ [.fall]) st := by
  cases h with
  | idle => exact .falling
  | pulse | rising hs => simp at hr

/-- With the line asserted either the assertion is still to be serviced or nothing is. -/
theorem Phase.fall_mem_or_nil {posted : List SelEdge} {st : TransactionState} (h : Phase true posted st) :
    .fall ∈ posted ∨ posted = [] := by
  cases h with
  | falling => exact .inl (by simp)
  | selected _ => exact .inr rfl

/-- The counts where no word was clocked with the line deasserted (R94). -/
structure Counted (s : State) : Prop where
  inactive : s.state = .inactive → s.rxq = []
  waiting : s.state = .waitingAddress →
    s.txCount = 0 ∧ s.rxCount = 0 ∧ s.txq.length + s.rxq.length = 1
  transferring : s.state = .transferring →
    s.txCount = s.rxCount + s.cfg.txDepth ∧ s.txq.length + s.rxq.length = s.cfg.txDepth

theorem counted_of_inactive {s : State} (hs : s.state = .inactive) (h : s.rxq = []) : Counted s where
  inactive := fun _ => h
  waiting := fun h => by cases hs.symm.trans h
  transferring := fun h => by cases hs.symm.trans h

theorem counted_of_waitingAddress {s : State} (hs : s.state = .waitingAddress)
    (h : s.txCount = 0 ∧ s.rxCount = 0 ∧ s.txq.length + s.rxq.length = 1) : Counted s where
  inactive := fun h => by cases hs.symm.trans h
  waiting := fun _ => h
  transferring := fun h => by cases hs.symm.trans h

theorem counted_of_transferring {s : State} (hs : s.state = .transferring)
    (h : s.txCount = s.rxCount + s.cfg.txDepth ∧ s.txq.length + s.rxq.length = s.cfg.txDepth) :
    Counted s where
  inactive := fun h => by cases hs.symm.trans h
  waiting := fun h => by cases hs.symm.trans h
  transferring := fun _ => h

/-- The engine keeps step with a timely schedule. -/
structure InStep (p : Timing) (s : State) : Prop where
  built : s.constructed = true
  enabled : s.irqEnabled = true
  noInner : s.inner = none
  depths : 0 < s.cfg.txDepth ∧ 0 < s.cfg.rxDepth
  noWord : s.shift = none
  line : s.selN = !p.low
  sampled : s.selQ = !p.low
  phase : Phase p.low p.posted s.state
  posted : s.pendingSel = p.posted
  pumped : p.owed = false → s.rxq = []
  attached : s.state = .transferring → s.addr.isSome ∧ s.bufs.isSome
  quiet : s.state = .inactive → s.txq = []
  /-- A byte is there to send wherever the next word may be clocked in a select cycle (R94). -/
  ready : p.low = true → p.posted = [] → s.rxq = [] → s.txq ≠ []
  counted : p.outside = 0 → Counted s

/-- What an input of a timely schedule leaves: the engine still in step, and no underrun draw but outside a
select cycle. -/
structure Follows (p q : Timing) (s t : State) : Prop where
  inStep : InStep q t
  inputs : t.inputs = s.inputs
  draws : (s.selN = false ∨ q.outside = p.outside) → t.draws = s.draws

/-- Between transactions the engine is in step with the start of a schedule. -/
theorem inStep_of_idle {s : State} (h : Idle s) : InStep Timing.start s where
  built := h.built
  enabled := h.enabled
  noInner := h.noInner
  depths := h.depths
  noWord := h.noWord
  line := h.selHigh
  sampled := h.sampledHigh
  phase := h.inactive ▸ .idle
  posted := h.noPending
  pumped := fun _ => h.rxEmpty
  attached := fun hs => by cases h.inactive.symm.trans hs
  quiet := fun _ => h.txEmpty
  ready := nofun
  counted := fun _ => counted_of_inactive h.inactive h.rxEmpty

/-- A sample of the select line keeps step. -/
theorem sel_follows {p q : Timing} {s : State} {level : Bool} (h : InStep p s)
    (hq : timelyNext p (.sel level) = some q) : Follows p q s (driveSelect level s) := by
  obtain ⟨low, posted, owed, outside⟩ := p
  simp only [timelyNext] at hq
  split at hq
  next hl =>
    cases hq
    rw [driveSelect_same (h.sampled.trans hl.symm) (h.line.trans hl.symm)]
    exact ⟨h, rfl, fun _ => rfl⟩
  next hl =>
    split at hq
    next ht =>
      obtain rfl : level = true := ht
      obtain rfl : low = true := by simpa using hl
      split at hq
      · cases hq
      next ho =>
        cases hq
        have ho' : owed = false := by simpa using ho
        rw [driveSelect_rise h.built h.sampled h.line]
        refine ⟨{ h with
          noWord := rfl
          line := rfl
          sampled := rfl
          phase := h.phase.rise
          posted := congrArg (· ++ _) h.posted
          ready := nofun
          counted := fun ho => { h.counted ho with } }, rfl, fun _ => rfl⟩
    next hf =>
      obtain rfl : level = false := by simpa using hf
      obtain rfl : low = false := by simpa using hl
      split at hq
      · cases hq
      next hr =>
        cases hq
        rw [driveSelect_fall h.built h.sampled h.line]
        refine ⟨{ h with
          noWord := rfl
          line := rfl
          sampled := rfl
          phase := h.phase.fall hr
          posted := congrArg (· ++ _) h.posted
          ready := fun _ hp => by simp at hp
          counted := fun ho => { h.counted ho with } }, rfl, fun _ => rfl⟩

/-- In a select cycle whose assertion was serviced the engine is not `Inactive`. -/
theorem Phase.ne_inactive {posted : List SelEdge} {st : TransactionState} (h : Phase true posted st)
    (hp : posted = []) : st ≠ .inactive := by
  cases h with
  | falling => cases hp
  | selected hs => exact hs

/-- A byte in `WaitingAddress` may open the transaction: the engine stays selected. -/
theorem Phase.active {low : Bool} {posted : List SelEdge} {st st' : TransactionState}
    (h : Phase low posted st) (hs : st ≠ .inactive) (hs' : st' ≠ .inactive) : Phase low posted st' := by
  cases h with
  | idle | falling | pulse => exact absurd rfl hs
  | selected _ => exact .selected hs'
  | rising _ => exact .rising hs'

/-- SEL_ASSERT keeps step: the placeholder is there for the address word (R72). -/
theorem selAssert_follows {low owed : Bool} {posted : List SelEdge} {outside : Nat} {s : State}
    (h : InStep ⟨low, .fall :: posted, owed, outside⟩ s) (hs : s.state = .inactive)
    (hphase : Phase low posted .waitingAddress) :
    ∃ t, exec .selAssert { s with pendingSel := posted } = .next t ∧
      Follows ⟨low, .fall :: posted, owed, outside⟩ ⟨low, posted, owed, outside⟩ s t := by
  have hq := h.quiet hs
  have hf : s.txq.length < s.cfg.txDepth := by
    rw [hq]
    exact h.depths.1
  refine ⟨_, exec_selAssert_eq_next.2 ⟨hs, hf, rfl⟩, { h with
    phase := hphase
    posted := rfl
    attached := nofun
    quiet := nofun
    ready := fun _ _ _ => by simp
    counted := fun hz => counted_of_waitingAddress rfl ⟨rfl, rfl, ?_⟩ }, rfl, fun _ => rfl⟩
  simp [hq, (h.counted hz).inactive hs]

/-- The return to `Inactive` keeps step (R74, R75). -/
theorem release_follows {owed : Bool} {outside : Nat} {s : State}
    (h : InStep ⟨false, [.rise], owed, outside⟩ s) (addr : Option RegAddr) (bufs : Option Buffers)
    (trace : List Obs) :
    Follows ⟨false, [.rise], owed, outside⟩ ⟨false, [], owed, outside⟩ s { reinitPort s with
      state := .inactive, addr := addr, bufs := bufs, trace := trace, pendingSel := [] } :=
  ⟨{ h with
    noWord := rfl
    phase := .idle
    posted := rfl
    pumped := fun _ => rfl
    attached := nofun
    quiet := fun _ => rfl
    ready := nofun
    counted := fun _ => counted_of_inactive rfl rfl }, rfl, fun _ => rfl⟩

/-- Servicing the select edge keeps step. -/
theorem serviceSelect_follows {p q : Timing} {s : State} (h : InStep p s)
    (hq : timelyNext p (.service .selectEdge) = some q) :
    ∃ t, serviceSelect s = .next t ∧ Follows p q s t := by
  obtain ⟨low, posted, owed, outside⟩ := p
  cases hq
  have hphase := h.phase
  have hposted := h.posted
  dsimp only at hphase hposted
  generalize hst : s.state = st at hphase
  cases hphase with
  | idle | selected _ => exact ⟨s, serviceSelect_none hposted, h, rfl, fun _ => rfl⟩
  | falling =>
    rw [serviceSelect_posted h.enabled hposted, congrArg (selectOp .fall) hst]
    exact selAssert_follows h hst (.selected (by decide))
  | pulse =>
    rw [serviceSelect_posted h.enabled hposted, congrArg (selectOp .fall) hst]
    exact selAssert_follows h hst (.rising (by decide))
  | rising hs =>
    rw [serviceSelect_posted h.enabled hposted]
    obtain hi | hw | ht := state_cases s
    · exact absurd (hst.symm.trans hi) hs
    · refine ⟨_, ?_, release_follows h s.addr s.bufs s.trace⟩
      rw [congrArg (selectOp .rise) hw]
      exact exec_selDeassertW (s := { s with pendingSel := [] }) hw
    · obtain ⟨a, ha⟩ := Option.isSome_iff_exists.1 (h.attached ht).1
      refine ⟨_, ?_, release_follows h none none (callEnd a s).trace⟩
      rw [congrArg (selectOp .rise) ht]
      exact exec_selDeassertT_eq_next.2 ⟨_, exec_cbEnd_eq_next.2 ⟨ht, a, ha, rfl⟩, rfl⟩

/-- A transmit path that was primed is not empty (R92). -/
theorem txq_receiveData_ne_nil {s : State} (hd : 0 < s.cfg.txDepth) (d : Buffers) {q : List Byte}
    (h : q = [] → s.txq ≠ []) : (receiveData d q s).txq ≠ [] := by
  cases q with
  | nil => simpa using h rfl
  | cons b q =>
    refine List.ne_nil_of_length_pos ?_
    rw [length_txq_receiveData, primedBy_cons]
    omega

theorem txq_openTransaction_ne_nil {s : State} (hd : 0 < s.cfg.txDepth) (b : Byte) :
    (openTransaction b s).txq ≠ [] := by
  refine List.ne_nil_of_length_pos ?_
  rw [length_txq_openTransaction]
  omega

/-- PUMP keeps step, and pays off the word that was owed one. -/
theorem execPump_follows {p : Timing} {s : State} (h : InStep p s) :
    ∃ t, execPump s = .next t ∧ Follows p { p with owed := false } s t := by
  rcases state_cases s with hs | hs | hs
  · refine ⟨_, execPump_of_inactive hs, { h with
      pumped := fun _ => rfl
      ready := fun hl hn => ?_
      counted := fun _ => counted_of_inactive hs rfl }, rfl, fun _ => rfl⟩
    have hphase := h.phase
    rw [hl] at hphase
    exact absurd hs (hphase.ne_inactive hn)
  · cases hq : s.rxq with
    | nil => exact ⟨s, execPump_nil hq, { h with pumped := fun _ => hq }, rfl, fun _ => rfl⟩
    | cons b q =>
      refine ⟨_, execPump_of_waitingAddress hs hq, { h with
        phase := h.phase.active (by simp [hs]) nofun
        pumped := fun _ => rfl
        attached := fun _ => ⟨rfl, rfl⟩
        quiet := nofun
        ready := fun _ _ _ =>
          txq_receiveData_ne_nil (by exact h.depths.1) _ fun _ => txq_openTransaction_ne_nil h.depths.1 b
        counted := fun ho => counted_of_transferring rfl ?_ }, rfl, fun _ => rfl⟩
      obtain ⟨htx, hrx, hlen⟩ := (h.counted ho).waiting hs
      rw [hq, List.length_cons] at hlen
      obtain rfl : q = [] := List.eq_nil_of_length_eq_zero (by omega)
      have htxq : s.txq = [] := List.eq_nil_of_length_eq_zero (by omega)
      simp [openTransaction, htx, hrx, htxq]
  · obtain ⟨d, hd⟩ := Option.isSome_iff_exists.1 (h.attached hs).2
    refine ⟨_, execPump_of_transferring hs hd, { h with
      pumped := fun _ => rfl
      quiet := fun hi => by cases hs.symm.trans hi
      ready := fun hl hn _ => txq_receiveData_ne_nil h.depths.1 d (h.ready hl hn)
      counted := fun ho => counted_of_transferring hs ?_ }, rfl, fun _ => rfl⟩
    obtain ⟨hcount, hlen⟩ := (h.counted ho).transferring hs
    have hprimed : primedBy s.rxq s = s.rxq.length := by
      unfold primedBy
      split
      next hq => rw [hq, List.length_nil]
      · omega
    refine ⟨?_, ?_⟩
    · show s.txCount + primedBy s.rxq s = s.rxCount + s.rxq.length + s.cfg.txDepth
      omega
    · show (receiveData d s.rxq s).txq.length + 0 = s.cfg.txDepth
      rw [length_txq_receiveData]
      omega

/-- A word with a byte to send keeps step. -/
theorem clockWord_of_cons_follows {p : Timing} {s : State} {v : Byte} {l : List Byte} (h : InStep p s)
    (ho : p.owed = false) (hq : s.txq = v :: l) {n : Nat} (hn : n = 0 → p.outside = 0) (m : Byte) :
    ∃ t, clockWord m s = .next t ∧ Follows p { p with owed := true, outside := n } s t := by
  have hrx := h.pumped ho
  have hr : s.rxq.length < s.cfg.rxDepth := by
    rw [hrx]
    exact h.depths.2
  refine ⟨_, clockWord_of_cons h.noWord hq hr m, { h with
    pumped := nofun
    quiet := fun hi => by simp [h.quiet hi] at hq
    ready := fun _ _ hx => by simp at hx
    counted := fun hz => ?_ }, rfl, fun _ => rfl⟩
  have hc := h.counted (hn hz)
  rcases state_cases s with hs | hs | hs
  · simp [h.quiet hs] at hq
  · obtain ⟨htx, hrx', hlen⟩ := hc.waiting hs
    refine counted_of_waitingAddress hs ⟨htx, hrx', ?_⟩
    simpa [hq, hrx] using hlen
  · obtain ⟨hcount, hlen⟩ := hc.transferring hs
    refine counted_of_transferring hs ⟨hcount, ?_⟩
    simpa [hq, hrx] using hlen

/-- A word with nothing to send keeps step while the line is deasserted: it is counted as outside. -/
theorem clockWord_of_nil_follows {p : Timing} {s : State} (h : InStep p s) (ho : p.owed = false)
    (hq : s.txq = []) (hlow : p.low = false) (m : Byte) :
    ∃ t, clockWord m s = .next t ∧ Follows p { p with owed := true, outside := p.outside + 1 } s t := by
  have hr : s.rxq.length < s.cfg.rxDepth := by
    rw [h.pumped ho]
    exact h.depths.2
  refine ⟨_, clockWord_of_nil h.noWord hq hr m, { h with
    pumped := nofun
    ready := fun hl => by simp [hlow] at hl
    counted := fun hz => by simp at hz }, rfl, ?_⟩
  rintro (hd | hd)
  · simp [h.line, hlow] at hd
  · simp at hd

/-- A clocked word keeps step: in a select cycle there is a byte to send (R94, R135). -/
theorem clk_follows {p q : Timing} {s : State} {m : Byte} (h : InStep p s)
    (hq : timelyNext p (.clk m) = some q) : ∃ t, clockInput m s = .next t ∧ Follows p q s t := by
  obtain ⟨low, posted, owed, outside⟩ := p
  simp only [timelyNext] at hq
  split at hq
  · cases hq
  next ho =>
  have ho' : owed = false := by simpa using ho
  split at hq
  next hl =>
    obtain rfl : low = true := hl
    split at hq
    · cases hq
    next hf =>
      cases hq
      have hposted : posted = [] := by
        cases h.phase.fall_mem_or_nil with
        | inl hm => exact absurd hm hf
        | inr hn => exact hn
      obtain ⟨v, l, htx⟩ := List.exists_cons_of_ne_nil (h.ready rfl hposted (h.pumped ho'))
      rw [clockInput_eq_clockWord]
      exact clockWord_of_cons_follows h ho' htx id m
  next hl =>
    have hl' : low = false := by simpa using hl
    cases hq
    rw [clockInput_eq_clockWord]
    cases htx : s.txq with
    | nil => exact clockWord_of_nil_follows h ho' htx hl' m
    | cons v l => exact clockWord_of_cons_follows h ho' htx (by simp) m

/-- Every input of a timely schedule keeps step. -/
theorem runInput_follows {p q : Timing} {s : State} {i : Input} (h : InStep p s)
    (hq : timelyNext p i = some q) : ∃ t, runInput i s = .next t ∧ Follows p q s t := by
  cases i with
  | sel level => exact ⟨_, rfl, sel_follows h hq⟩
  | service source =>
    cases source with
    | selectEdge => exact serviceSelect_follows h hq
    | byteReady =>
      cases hq
      rw [runInput, servicePump_enabled h.enabled]
      exact execPump_follows h
  | event code ops =>
    simp only [timelyNext] at hq
    rw [runInput]
    split at hq
    next hc =>
      cases hq
      rw [hc, presentEvent_external (by decide) (.inl h.built), dispatch_pump]
      exact execPump_follows h
    next =>
      split at hq
      next hc =>
        cases hq
        rw [hc, presentEvent_external (by decide) (.inl h.built), dispatch_tick]
        exact ⟨_, rfl, { h with counted := fun ho => { h.counted ho with } }, rfl, fun _ => rfl⟩
      · cases hq
  | clk m => exact clk_follows h hq
  | bit b => cases hq

/-- Words clocked with the line deasserted are only counted up. -/
theorem timelyNext_outside_le {p q : Timing} {i : Input} (h : timelyNext p i = some q) :
    p.outside ≤ q.outside := by
  cases i with
  | service source =>
    cases source <;> cases h <;> exact le_rfl
  | bit b => cases h
  | sel level =>
    simp only [timelyNext] at h
    split at h
    · cases h
      exact le_rfl
    · split at h <;> split at h <;> cases h <;> exact le_rfl
  | event code ops =>
    simp only [timelyNext] at h
    split at h
    · cases h
      exact le_rfl
    · split at h <;> cases h
      exact le_rfl
  | clk m =>
    simp only [timelyNext] at h
    split at h
    · cases h
    split at h
    · split at h <;> cases h
      exact le_rfl
    · cases h
      exact Nat.le_succ _

theorem timelyFrom_outside_le {p q : Timing} {l : List Input} (h : timelyFrom p l = some q) :
    p.outside ≤ q.outside := by
  induction l generalizing p with
  | nil =>
    cases h
    exact le_rfl
  | cons i l ih =>
    obtain ⟨r, hr, hq⟩ := Option.bind_eq_some_iff.1 h
    exact (timelyNext_outside_le hr).trans (ih hq)

/-- A run of a timely schedule ends with the engine in step, and draws no underrun byte but outside a select
cycle. -/
theorem runFor_timely {p q : Timing} {s : State} {schedule : List Input} (h : InStep p s)
    (hq : timelyFrom p schedule = some q) (hin : s.inputs = schedule) :
    ∃ t, runFor schedule.length s = .next t ∧ InStep q t ∧
      (∀ j u v, j < schedule.length → runFor j s = .next u → step u = .next v → u.selN = false →
        v.draws = u.draws) ∧
      (q.outside = p.outside → t.draws = s.draws) := by
  induction schedule generalizing p s with
  | nil =>
    cases hq
    exact ⟨s, rfl, h, fun j _ _ hj => absurd hj (Nat.not_lt_zero j), fun _ => rfl⟩
  | cons i schedule ih =>
    obtain ⟨r, hr, hq⟩ := Option.bind_eq_some_iff.1 hq
    obtain ⟨u, hu, hstep, hinputs, hdraws⟩ :=
      runInput_follows (s := { s with inputs := schedule })
        { h with counted := fun ho => { h.counted ho with } } hr
    have hs : step s = .next u := (step_input h.noInner hin).trans hu
    obtain ⟨t, ht, hend, hall, hnone⟩ := ih hstep hq hinputs
    refine ⟨t, (runFor_succ_of_step hs _).trans ht, hend, fun j v w hj hv hw hl => ?_, fun ho => ?_⟩
    · cases j with
      | zero =>
        cases hv
        cases hs.symm.trans hw
        exact hdraws (.inl hl)
      | succ j =>
        rw [runFor_succ_of_step hs] at hv
        exact hall j v w (Nat.lt_of_succ_lt_succ hj) hv hw hl
    · have h1 := timelyNext_outside_le hr
      have h2 := timelyFrom_outside_le hq
      exact (hnone (by omega)).trans (hdraws (.inr (by omega)))

/-- Settles O51: the run stays in step, by `runFor_timely`. -/
theorem timelyRunsNeverUnderrun : Obligations.TimelyRunsNeverUnderrun := by
  intro s schedule p hidle ⟨hq, _⟩ hin
  obtain ⟨t, ht, hend, hall, hnone⟩ := runFor_timely (inStep_of_idle hidle) hq hin
  simp only [run_eq_runFor]
  exact ⟨t, ht, hall, fun ho => ⟨hnone ho, fun hs => ((hend.counted ho).transferring hs).1⟩⟩

end Sys2Proof.Machine
end

section
/-! PROOFS. Whole select cycles (R138): an empty one, and a transaction as a function of its frame. -/

namespace Sys2Proof.Machine

/-! ## The lines of R61 and R62 -/

/-- Running the inputs of a line from `s` leads to `t`. -/
def RunsThrough (line : List Input) (s t : State) : Prop := runFor line.length s = .next t

theorem runsThrough_append {l l' : List Input} {s u t : State} (h : RunsThrough l s u)
    (h' : RunsThrough l' u t) : RunsThrough (l ++ l') s t := by
  rw [RunsThrough, List.length_append, runFor_add, h, andThen_next]
  exact h'

/-- A line of two inputs is two steps. -/
theorem runsThrough_pair {i j : Input} {s u t : State} (h : step s = .next u) (h' : step u = .next t) :
    RunsThrough [i, j] s t :=
  (runFor_succ_of_step h 1).trans (runFor_succ_of_step h' 0)

/-- What SELFALL leaves from between transactions, with `more` to come. -/
def selected (s : State) (more : List Input) : State :=
  { s with
    inputs := more, selN := false, selQ := false, frameIdx := 0, pendingSel := [], txCount := 0,
    rxCount := 0, state := .waitingAddress, txq := [placeholder], diag := false }

theorem selFall_runs {s : State} {more : List Input} (h : Idle s) (hin : s.inputs = selFallLine ++ more) :
    RunsThrough selFallLine s (selected s more) := by
  have hsample : step s = .next (driveSelect false { s with inputs := .service .selectEdge :: more }) :=
    step_input h.noInner hin
  rw [driveSelect_fall (by exact h.built) (by exact h.sampledHigh) (by exact h.selHigh)] at hsample
  refine runsThrough_pair hsample ((step_input (by exact h.noInner) rfl).trans ?_)
  have hposted : s.pendingSel ++ [.fall] = [.fall] := by rw [h.noPending, List.nil_append]
  have hfree : s.txq.length < s.cfg.txDepth := by
    rw [h.txEmpty]
    exact h.depths.1
  refine (serviceSelect_posted (by exact h.enabled) (by exact hposted)).trans ?_
  rw [congrArg (selectOp .fall) h.inactive]
  refine exec_selAssert_eq_next.2 ⟨h.inactive, hfree, ?_⟩
  simp [selected, h.noWord, h.noResidue, h.txEmpty]

/-- The line deasserted, with the edge consumed and `more` to come (R70, log 32). -/
def deselected (s : State) (more : List Input) : State :=
  { s with
    inputs := more, selN := true, selQ := true, pendingSel := [], shift := none,
    residue := s.residue ++ s.shift.toList }

/-- SELRISE consumes the edge it posts: it is the operation the rising edge selects (R74, R75). -/
theorem selRise_runs {s t : State} {more : List Input} (hc : s.constructed = true)
    (he : s.irqEnabled = true) (hi : s.inner = none) (hq : s.selQ = false) (hn : s.selN = false)
    (hp : s.pendingSel = []) (hin : s.inputs = selRiseLine ++ more)
    (h : exec (selectOp .rise s.state) (deselected s more) = .next t) : RunsThrough selRiseLine s t := by
  have hsample : step s = .next (driveSelect true { s with inputs := .service .selectEdge :: more }) :=
    step_input hi hin
  rw [driveSelect_rise (by exact hc) (by exact hq) (by exact hn)] at hsample
  refine runsThrough_pair hsample ((step_input (by exact hi) rfl).trans ?_)
  have hposted : s.pendingSel ++ [.rise] = [.rise] := by rw [hp, List.nil_append]
  refine (serviceSelect_posted (by exact he) (by exact hposted)).trans ?_
  exact h

/-- Settles O53. -/
theorem emptyCycleLeavesNoTrace : Obligations.EmptyCycleLeavesNoTrace := by
  intro s more h hin
  have hfall := selFall_runs (more := selRiseLine ++ more) h hin
  have hrise : RunsThrough selRiseLine (selected s (selRiseLine ++ more)) (reinitPort { selected s more with
      selN := true, selQ := true, state := .inactive }) := by
    refine selRise_runs h.built h.enabled h.noInner rfl rfl rfl rfl ?_
    exact exec_selDeassertW rfl
  refine ⟨_, (run_eq_runFor _ _).trans (runsThrough_append hfall hrise), rfl, rfl, rfl, rfl, { h with
    inactive := rfl
    rxEmpty := rfl
    txEmpty := rfl
    noWord := rfl
    noResidue := rfl
    selHigh := rfl
    sampledHigh := rfl
    noPending := rfl }⟩

/-- XFER in a select cycle: the word is exchanged, and PUMP handles its byte (R62). -/
theorem xfer_runs {s t : State} {m v : Byte} {q : List Byte} {more : List Input}
    (he : s.irqEnabled = true) (hi : s.inner = none) (hn : s.selN = false) (hw : s.shift = none)
    (hr : s.rxq = []) (hd : 0 < s.cfg.rxDepth) (hq : s.txq = v :: q) (hin : s.inputs = xferLine m ++ more)
    (h : execPump { s with
      inputs := more, txq := q, rxq := [m], frameIdx := s.frameIdx + 1, trace := s.trace ++ [.word m v],
      wire := s.wire ++ (List.range 8).flatMap (fun k => clockPeriod (bitAt m k) (bitAt v k)) } =
        .next t) : RunsThrough (xferLine m) s t := by
  have hroom : s.rxq.length < s.cfg.rxDepth := by
    rw [hr]
    exact hd
  have hclk : step s = clockInput m { s with inputs := .service .byteReady :: more } := step_input hi hin
  rw [clockInput_eq_clockWord, clockWord_of_cons (by exact hw) (by exact hq) (by exact hroom)] at hclk
  refine runsThrough_pair hclk ((step_input (by exact hi) rfl).trans ?_)
  refine (servicePump_enabled (by exact he)).trans (.trans ?_ h)
  simp [hr, hn]

/-! ## The data phase -/

theorem storeBytes_append (d : Buffers) (first : Nat) (q q' : List Byte) (mem : Memory) :
    storeBytes d first (q ++ q') mem = storeBytes d (first + q.length) q' (storeBytes d first q mem) := by
  induction q generalizing first mem with
  | nil => rfl
  | cons b q ih =>
    rw [List.cons_append, storeBytes, storeBytes, ih, List.length_cons]
    congr 1
    omega

/-- In the data phase of a select cycle that was opened in `o`, with buffers `d`, after the data bytes
`ds`. -/
structure DataPhase (o : State) (d : Buffers) (ds : List Byte) (s : State) : Prop where
  built : s.constructed = true
  enabled : s.irqEnabled = true
  noInner : s.inner = none
  depths : 0 < s.cfg.txDepth ∧ 0 < s.cfg.rxDepth
  selLow : s.selN = false
  sampledLow : s.selQ = false
  noPending : s.pendingSel = []
  noWord : s.shift = none
  noResidue : s.residue = []
  rxEmpty : s.rxq = []
  state : s.state = .transferring
  bufs : s.bufs = some d
  addr : s.addr = o.addr
  cbEnd : s.cbEnd = o.cbEnd
  draws : s.draws = o.draws
  cfg : s.cfg = o.cfg
  txMem : s.txMem = o.txMem
  rxMem : s.rxMem = storeBytes d 0 ds o.rxMem
  rxCount : s.rxCount = ds.length
  txCount : s.txCount = ds.length + s.cfg.txDepth
  txq : s.txq = stream d o.txMem ds.length s.cfg.txDepth
  trace : s.trace = o.trace ++ ds.mapIdx (fun i m => .word m (streamByte d o.txMem i))

/-- One XFER of the data phase (R95, R96). -/
theorem dataPhase_xfer {o s : State} {d : Buffers} {ds : List Byte} {m : Byte} {more : List Input}
    (h : DataPhase o d ds s) (hin : s.inputs = xferLine m ++ more) :
    ∃ t, RunsThrough (xferLine m) s t ∧ DataPhase o d (ds ++ [m]) t ∧ t.inputs = more := by
  obtain ⟨n, hn⟩ : ∃ n, s.cfg.txDepth = n + 1 := Nat.exists_eq_succ_of_ne_zero (Nat.ne_of_gt h.depths.1)
  have htxq := h.txq
  rw [hn, stream_succ] at htxq
  refine ⟨_, xfer_runs h.enabled h.noInner h.selLow h.noWord h.rxEmpty h.depths.2 htxq hin
    (execPump_of_transferring h.state h.bufs), { h with
    rxEmpty := rfl
    rxMem := ?_
    rxCount := ?_
    txCount := ?_
    txq := ?_
    trace := ?_ }, rfl⟩
  · rw [storeBytes_append, ← h.rxMem, Nat.zero_add, ← h.rxCount]
    rfl
  · simp [receiveData, h.rxCount]
  · show s.txCount + (s.cfg.txDepth - (stream d o.txMem (ds.length + 1) n).length) =
      (ds ++ [m]).length + s.cfg.txDepth
    rw [stream_length, h.txCount, List.length_append, List.length_singleton]
    omega
  · have hnext : ds.length + 1 + n = ds.length + (n + 1) := by omega
    simp [receiveData, h.txCount, h.txMem, hn, stream_add _ _ _ n 1, hnext]
  · simp [receiveData, h.trace, List.mapIdx_append]

/-- All the data bytes of a frame, one XFER each. -/
theorem dataPhase_xfers {o s : State} {d : Buffers} {done : List Byte} (ds : List Byte) {more : List Input}
    (h : DataPhase o d done s) (hin : s.inputs = xferLines ds ++ more) :
    ∃ t, RunsThrough (xferLines ds) s t ∧ DataPhase o d (done ++ ds) t ∧ t.inputs = more := by
  induction ds generalizing s done with
  | nil => exact ⟨s, rfl, by rwa [List.append_nil], hin⟩
  | cons m ds ih =>
    rw [xferLines, List.flatMap_cons, List.append_assoc] at hin
    obtain ⟨u, hu, hphase, hrest⟩ := dataPhase_xfer h hin
    obtain ⟨t, ht, hend, hmore⟩ := ih hphase hrest
    rw [List.append_assoc] at hend
    exact ⟨t, runsThrough_append hu ht, hend, hmore⟩

/-! ## A whole transaction -/

/-- A stream byte of an answer's own buffer is the answer's byte, or the pad (R91, R95). -/
theorem streamByte_load {mem : Memory} (hm : mem.wf) (w : StartAnswer) (i : Nat) :
    streamByte (descriptorOf w) (Memory.load mem w.txBase w.tx) i = w.tx.getD i 0x00#8 := by
  unfold streamByte
  split
  next hi =>
    rw [List.getD_eq_getElem _ _ hi]
    exact Memory.read_load_inside hm w.txBase w.tx i hi
  next hi =>
    rw [List.getD_eq_default _ _ (Nat.le_of_not_lt hi)]
    rfl

/-- PUMP with the address byte alone. -/
theorem execPump_of_address {s : State} {b : Byte} (h : s.state = .waitingAddress) (hq : s.rxq = [b]) :
    execPump s = .next { openTransaction b s with rxq := [] } := by
  rw [execPump_of_waitingAddress h hq, receiveData_nil]

/-- The address word of a frame: it takes the placeholder, and its byte opens the transaction (R89). -/
theorem address_runs {s : State} {a : Byte} {more : List Input} (h : Idle s)
    (hin : s.inputs = selFallLine ++ (xferLine a ++ more)) :
    ∃ t, RunsThrough (selFallLine ++ xferLine a) s t ∧ t.inputs = more ∧
      DataPhase t (descriptorOf (answerOf s (addressOperand a)).1) [] t ∧
      t.addr = some (addressOperand a) ∧ t.cbEnd = s.cbEnd ∧ t.draws = s.draws ∧ t.cfg = s.cfg ∧
      t.txMem = Memory.load s.txMem (answerOf s (addressOperand a)).1.txBase
        (answerOf s (addressOperand a)).1.tx ∧
      t.rxMem = Memory.load s.rxMem (answerOf s (addressOperand a)).1.rxBase
        (answerOf s (addressOperand a)).1.rx ∧
      t.trace = s.trace ++ [.word a 0x00#8, .start s.cbStart (addressOperand a)] := by
  have hfall := selFall_runs h hin
  refine ⟨_, runsThrough_append hfall (xfer_runs h.enabled h.noInner rfl h.noWord h.rxEmpty h.depths.2 rfl
    rfl (execPump_of_address rfl rfl)), rfl, { h with
    selLow := rfl
    sampledLow := rfl
    noPending := rfl
    rxEmpty := rfl
    state := rfl
    bufs := rfl
    addr := rfl
    cbEnd := rfl
    draws := rfl
    cfg := rfl
    txMem := rfl
    rxMem := rfl
    rxCount := rfl
    txCount := rfl
    txq := rfl
    trace := (List.append_nil _).symm }, rfl, rfl, rfl, rfl, rfl, rfl, ?_⟩
  exact List.append_assoc s.trace [.word a 0x00#8] [.start s.cbStart (addressOperand a)]

/-- The end of a frame: `End` is called with the number of data words, and the engine is between transactions
again (R74, R98). -/
theorem finish_runs {o s : State} {d : Buffers} {ds : List Byte} {a : RegAddr} {more : List Input}
    (h : DataPhase o d ds s) (ha : o.addr = some a) (hin : s.inputs = selRiseLine ++ more) :
    ∃ t, RunsThrough selRiseLine s t ∧ Idle t ∧ t.inputs = more ∧ t.rxCount = s.rxCount ∧
      t.txCount = s.txCount ∧ t.draws = s.draws ∧ t.rxMem = s.rxMem ∧
      t.trace = s.trace ++ [.finish o.cbEnd a (ds.length : Int)] := by
  have hexec := congrArg (fun st => exec (selectOp .rise st) (deselected s more)) h.state
  have hend := (exec_selDeassertT_eq_next (s := deselected s more)).2
    ⟨_, exec_cbEnd_eq_next.2 ⟨h.state, a, h.addr.trans ha, rfl⟩, rfl⟩
  refine ⟨_, selRise_runs h.built h.enabled h.noInner h.sampledLow h.selLow h.noPending hin
    (hexec.trans hend), { h with
      inactive := rfl
      rxEmpty := rfl
      txEmpty := rfl
      noWord := rfl
      noResidue := rfl
      selHigh := rfl
      sampledHigh := rfl
      noPending := rfl }, rfl, rfl, rfl, rfl, rfl, ?_⟩
  rw [← h.cbEnd, ← h.rxCount]
  rfl

/-- A run keeps the invariant. -/
theorem runFor_invariant {k : Nat} {s t : State} (hs : Invariant s) (h : runFor k s = .next t) :
    Invariant t := by
  induction k generalizing s with
  | zero =>
    cases h
    exact hs
  | succ k ih =>
    obtain ⟨u, hu, ht⟩ := andThen_eq_next.1 h
    exact ih (stepKeepsInvariant s u hs hu) ht

/-- Settles O52: the address word, the data words and the deassertion, one after another. -/
theorem transactionIsAFunctionOfItsFrame : Obligations.TransactionIsAFunctionOfItsFrame := by
  intro s a ds more hs hidle hin w
  have hsplit : txnLine a ds ++ more =
      selFallLine ++ (xferLine a ++ (xferLines ds ++ (selRiseLine ++ more))) := by
    simp only [txnLine, List.append_assoc]
  obtain ⟨o, ho, hoin, hopen, haddr, hcbEnd, hdraws, hcfg, htxMem, hrxMem, htrace⟩ :=
    address_runs hidle (hin.trans hsplit)
  obtain ⟨u, hu, hphase, huin⟩ := dataPhase_xfers ds hopen hoin
  obtain ⟨t, ht, htidle, htin, htrx, httx, htdraws, htmem, httrace⟩ := finish_runs hphase haddr huin
  have hrun : RunsThrough (txnLine a ds) s t := runsThrough_append (runsThrough_append ho hu) ht
  have hwf : (Memory.load s.rxMem w.rxBase w.rx).wf := Memory.load_wf hs.rxWf _ _
  rw [List.nil_append] at hphase
  have hmem : t.rxMem = storeBytes (descriptorOf w) 0 ds (Memory.load s.rxMem w.rxBase w.rx) := by
    rw [htmem, hphase.rxMem, hrxMem]
    rfl
  refine ⟨t, (run_eq_runFor _ s).trans hrun, ?_, fun i hi hr => ?_, fun x hx => ?_, ?_, ?_, htin, ?_,
    htidle, runFor_invariant hs hrun⟩
  · have hdata : (fun i m => Obs.word m (streamByte (descriptorOf (answerOf s (addressOperand a)).1)
        o.txMem i)) = fun i m => Obs.word m (w.tx.getD i 0x00#8) := by
      funext i m
      rw [htxMem]
      exact congrArg (Obs.word m) (streamByte_load hs.txWf w i)
    rw [httrace, hphase.trace, htrace, hcbEnd, hdata]
    rfl
  · rw [hmem]
    have := read_storeBytes (d := descriptorOf w) (first := 0) hwf hi (by rw [Nat.zero_add]; exact hr)
    rwa [Nat.zero_add] at this
  · rw [hmem]
    refine read_storeBytes_other _ fun i hi hr => ?_
    rw [Nat.zero_add] at hr ⊢
    exact hx i hi hr
  · rw [htrx, hphase.rxCount]
  · rw [httx, hphase.txCount, hphase.cfg, hcfg]
  · rw [htdraws, hphase.draws, hdraws]

end Sys2Proof.Machine
end
